-- ==== Sys2Proof/Word.lean ====
section
/-! DEFINITION. The block's words: the bit widths the spec gives (R7, R22, R25, R84, R85) and the closed sets of names behind
its small codes. Nothing here computes; every numeric code stands in Decode.lean and Machine/Outputs.lean. -/

namespace Sys2Proof

/-- One stream byte, flags byte or buffer entry (R20, R27): 8 bits. -/
abbrev Byte := BitVec 8

/-- An opaque timestamp of the open width TSW (R7, D4): TSW bits, on which nothing computes. TSW is an argument of every
type and operation that holds one. -/
abbrev Timestamp (tsw : Nat) := BitVec tsw

/-- One raw channel (R8, CH_W): 11 bits. -/
abbrev RawChannel := BitVec 11

/-- One scaled channel (R8, SC_W): 12 bits. -/
abbrev ScaledChannel := BitVec 12

/-- The 16 raw channels `ch_raw[0..15]` (R22). -/
abbrev Channels := Vector RawChannel 16

/-- The 22 analog payload bytes `P[0..21]` the bit-slicer reads (R150). -/
abbrev AnalogBytes := Vector Byte 22

/-- The decoder state register `st` (R25). -/
inductive St where
  /-- hunting for a start-sync byte -/
  | idle
  /-- accumulating payload bytes -/
  | collect
  /-- split mode only: the next byte is the flags byte -/
  | flags
  /-- the next byte should be the stop-sync byte -/
  | awaitStop
deriving DecidableEq, Repr

/-- The event kinds (R84). The reserved codes 6 and 7 are never driven (R89), so they have no constructor. -/
inductive EvKind where
  | none
  | start
  | chan
  | flag
  | stop
  | desync
deriving DecidableEq, Repr

/-- The error codes (R85). The reserved code 3 is never driven (R89), so it has no constructor. -/
inductive EvErr where
  | none
  | prematureStart
  | badTerminator
deriving DecidableEq, Repr

end Sys2Proof
end

