-- ==== Sys2Proof/Config.lean ====
section
/-! DEFINITION. What is fixed when an instance is built (R6, R7). MODE is a two-valued type, so the elaboration failure of
R204 cannot be written down. TSW is any number. The two are data of State that no step changes, so that every statement
over a state speaks of both modes and of every width. -/

namespace Sys2Proof

/-- The elaboration parameter MODE (R3, R6): SPLIT or UNIFIED. -/
inductive Mode where
  /-- the flags byte is decoded on its own -/
  | split
  /-- the flags byte is folded into the payload and not decoded -/
  | unified
deriving DecidableEq, Repr

/-- The timestamp width of a block that keeps the bit pattern of the source's "f64-seconds" timestamps (R7). -/
def f64Width : Nat := 64

end Sys2Proof
end

