-- ==== Sys2Proof/Machine/Constants.lean ====
section
/-! DEFINITION. The fixed constants of R8, each named once so that a later audit of the source's literals (I1) changes one
place. -/

namespace Sys2Proof

/-- SYNC_START: the start-sync byte (R8). -/
abbrev syncStart : Byte := 0x0F#8

/-- SYNC_STOP: the stop-sync byte (R8). -/
abbrev syncStop : Byte := 0x00#8

/-- CAP: the payload buffer capacity in each mode (R8, R27). -/
def cap : Mode → Nat
  | .split => 22
  | .unified => 23

/-- BUF_ENTRIES: the physical buffer entries (R8). -/
def bufEntries : Nat := 23

/-- STOP_POS: the frame position of the stop byte (R8). -/
def stopPos : Nat := 24

/-- The frame position of the flags byte (R2), the value of idx in FLAGS (R39). -/
def flagsPos : Nat := 23

/-- SCALE_MUL (R8). -/
def scaleMul : Nat := 1024

/-- SCALE_DIV (R8). -/
def scaleDiv : Nat := 1639

/-- SCALE_OFS (R8). -/
def scaleOfs : Nat := 881

end Sys2Proof
end

