-- ==== Sys2Proof/Syntax.lean ====
section
/-! DEFINITION. The instructions: one constructor per row of spec/opcode_table.json. The ten DW rows are the transition
classes of R81; the three CW rows are the kinds of clock edge of R82. -/

namespace Sys2Proof

/-- An instruction of the block. A class's operands are the byte, the two timestamps and the state (R83): the byte stands in
the decode word and is carried here where its row leaves it free, and the rows' m, s and i fields ARE the state, so they
are not operands. The timestamps never select a class (R80) and are read from the input ports. -/
inductive Instr where
  /-- IDLE_START (R102): a start-sync byte while hunting. -/
  | idleStart
  /-- IDLE_SKIP (R103): any other byte while hunting. -/
  | idleSkip (b : Byte)
  /-- COLL_RESTART (R104): a start-sync byte in the middle of the payload. -/
  | collRestart
  /-- COLL_CHAN_SPLIT (R106): the last analog byte in split mode. -/
  | collChanSplit (b : Byte)
  /-- COLL_CHAN_UNIFIED (R107): the folded flags byte in unified mode. -/
  | collChanUnified (b : Byte)
  /-- COLL_ACCUM (R105): one more payload byte. -/
  | collAccum (b : Byte)
  /-- FLGS_RESTART (R108): a start-sync byte where the flags byte is due. -/
  | flgsRestart
  /-- FLGS_DECODE (R109): the flags byte. -/
  | flgsDecode (b : Byte)
  /-- AWST_STOP (R110): the stop-sync byte ends the frame. -/
  | awstStop
  /-- AWST_DESYNC (R111): a bad terminator. -/
  | awstDesync (b : Byte)
  /-- RESET (R230): an edge with rst = 1; in_valid is the row's one free bit and is ignored (R232). -/
  | reset (inValid : Bool)
  /-- BEAT (R101): an edge that carries a byte; its class is read from the decode word. -/
  | beat
  /-- IDLE_EDGE (R237): an edge that carries no byte. -/
  | idleEdge
deriving DecidableEq, Repr

end Sys2Proof
end

