-- ==== Sys2Proof/WellFormed.lean ====
section
/-! DEFINITION. What makes an instruction well formed: the byte conditions of the class rules' operand lines (R102 to R111),
the mode and position each row stands for (R81), and the reachable (MODE, st, idx) triples of R87. -/

namespace Sys2Proof

/-- The operand condition on the byte of each class (the "Operands" line of R102 to R111). A class whose byte the row fixes,
and the three kinds of edge, have no free byte. -/
def Instr.wellFormed : Instr → Bool
  | .idleStart => true
  | .idleSkip b => b != syncStart
  | .collRestart => true
  | .collChanSplit b => b != syncStart
  | .collChanUnified b => b != syncStart
  | .collAccum b => b != syncStart
  | .flgsRestart => true
  | .flgsDecode b => b != syncStart
  | .awstStop => true
  | .awstDesync b => b != syncStop
  | .reset _ => true
  | .beat => true
  | .idleEdge => true

/-- The decoder state a class belongs to (the s field its row fixes, R81); a kind of edge belongs to none. -/
def Instr.state? : Instr → Option St
  | .idleStart => some .idle
  | .idleSkip _ => some .idle
  | .collRestart => some .collect
  | .collChanSplit _ => some .collect
  | .collChanUnified _ => some .collect
  | .collAccum _ => some .collect
  | .flgsRestart => some .flags
  | .flgsDecode _ => some .flags
  | .awstStop => some .awaitStop
  | .awstDesync _ => some .awaitStop
  | .reset _ => none
  | .beat => none
  | .idleEdge => none

/-- The mode and position a row stands for, by the "condition in words" column of R81: a CHAN row only at the last payload
position of its own mode, COLL_ACCUM at every other position, every other row at any. -/
def Instr.admits (m : Mode) (idx : BitVec 5) : Instr → Bool
  | .idleStart => true
  | .idleSkip _ => true
  | .collRestart => true
  | .collChanSplit _ => m == .split && idx == 22#5
  | .collChanUnified _ => m == .unified && idx == 23#5
  | .collAccum _ => idx.toNat != cap m
  | .flgsRestart => true
  | .flgsDecode _ => true
  | .awstStop => true
  | .awstDesync _ => true
  | .reset _ => true
  | .beat => true
  | .idleEdge => true

/-- The reachable (MODE, st, idx) triples of R87: (m, IDLE, 0), (m, COLLECT, 1..CAP), (SPLIT, FLAGS, 23) and
(m, AWAIT_STOP, 24). -/
def reachableTriple (m : Mode) (st : St) (idx : BitVec 5) : Bool :=
  match st with
  | .idle => idx.toNat == 0
  | .collect => decide (1 ≤ idx.toNat) && decide (idx.toNat ≤ cap m)
  | .flags => m == .split && idx.toNat == flagsPos
  | .awaitStop => idx.toNat == stopPos

end Sys2Proof
end

