-- ==== Sys2Proof/Decode.lean ====
section
/-! DEFINITION. Decoding and encoding. The decode word (R80) and the control word (R82) are packed here; `decodeDw` is the
table of R81, its masks and patterns in priority order; `decode` is total on both formats; a table word of the host that
fits neither format is rejected by name. After the decoder stands the encoder, written from the same table. -/

namespace Sys2Proof

/-- MODE as the bit m of the decode word (R6, R80): SPLIT 0, UNIFIED 1. -/
def Mode.code : Mode → BitVec 1
  | .split => 0#1
  | .unified => 1#1

/-- MODE from the bit m (R80). -/
def Mode.ofCode (c : BitVec 1) : Mode := if c = 1#1 then .unified else .split

/-- The 2-bit encoding of st (R25). -/
def St.code : St → BitVec 2
  | .idle => 0#2
  | .collect => 1#2
  | .flags => 2#2
  | .awaitStop => 3#2

/-- st from its 2-bit encoding (R25). -/
def St.ofCode (c : BitVec 2) : St :=
  if c = 0#2 then .idle else if c = 1#2 then .collect else if c = 2#2 then .flags else .awaitStop

/-- `DW = {MODE, st[1:0], idx[4:0], in_byte[7:0]}` (R80). -/
def packDw (m : Mode) (st : St) (idx : BitVec 5) (b : Byte) : BitVec 16 := m.code ++ st.code ++ idx ++ b

/-- The field m of a decode word (R80). -/
def dwMode (w : BitVec 16) : Mode := Mode.ofCode (w.extractLsb' 15 1)

/-- The field s of a decode word (R80). -/
def dwSt (w : BitVec 16) : St := St.ofCode (w.extractLsb' 13 2)

/-- The field i of a decode word (R80). -/
def dwIdx (w : BitVec 16) : BitVec 5 := w.extractLsb' 8 5

/-- The field b of a decode word (R80). -/
def dwByte (w : BitVec 16) : Byte := w.extractLsb' 0 8

/-- One row of the table of R81: `(DW & mask) == match`. -/
structure DwRow where
  mask : BitVec 16
  pattern : BitVec 16
deriving DecidableEq, Repr

/-- The row's mask and match fit the decode word (R81). -/
def DwRow.fits (r : DwRow) (w : BitVec 16) : Bool := w &&& r.mask == r.pattern

/-- R81, priority 1. -/
def rowIdleStart : DwRow := ⟨0x60FF#16, 0x000F#16⟩
/-- R81, priority 2. -/
def rowIdleSkip : DwRow := ⟨0x6000#16, 0x0000#16⟩
/-- R81, priority 3. -/
def rowCollRestart : DwRow := ⟨0x60FF#16, 0x200F#16⟩
/-- R81, priority 4. -/
def rowCollChanSplit : DwRow := ⟨0xFF00#16, 0x3600#16⟩
/-- R81, priority 5. -/
def rowCollChanUnified : DwRow := ⟨0xFF00#16, 0xB700#16⟩
/-- R81, priority 6. -/
def rowCollAccum : DwRow := ⟨0x6000#16, 0x2000#16⟩
/-- R81, priority 7. -/
def rowFlgsRestart : DwRow := ⟨0x60FF#16, 0x400F#16⟩
/-- R81, priority 8. -/
def rowFlgsDecode : DwRow := ⟨0x6000#16, 0x4000#16⟩
/-- R81, priority 9. -/
def rowAwstStop : DwRow := ⟨0x60FF#16, 0x6000#16⟩
/-- R81, priority 10. -/
def rowAwstDesync : DwRow := ⟨0x6000#16, 0x6000#16⟩

/-- Class selection (R81): the first row, in priority order, that fits. The table is total, so the last row needs no test of
its own; `decodeDw_last_row` in Laws/Decode.lean shows that it fits whenever it is reached. -/
def decodeDw (w : BitVec 16) : Instr :=
  if rowIdleStart.fits w then .idleStart
  else if rowIdleSkip.fits w then .idleSkip (dwByte w)
  else if rowCollRestart.fits w then .collRestart
  else if rowCollChanSplit.fits w then .collChanSplit (dwByte w)
  else if rowCollChanUnified.fits w then .collChanUnified (dwByte w)
  else if rowCollAccum.fits w then .collAccum (dwByte w)
  else if rowFlgsRestart.fits w then .flgsRestart
  else if rowFlgsDecode.fits w then .flgsDecode (dwByte w)
  else if rowAwstStop.fits w then .awstStop
  else .awstDesync (dwByte w)

/-- `CW = {rst, in_valid}` (R82). -/
def packCw (rst inValid : Bool) : BitVec 2 := BitVec.ofBool rst ++ BitVec.ofBool inValid

/-- The kind of an edge (R21, R82): RESET (mask 0b10, match 0b10), BEAT (mask 0b11, match 0b01), else IDLE_EDGE. -/
def decodeCw (w : BitVec 2) : Instr :=
  if w &&& 2#2 = 2#2 then .reset (w.getLsbD 0)
  else if w = 1#2 then .beat
  else .idleEdge

/-- A word in one of the block's two formats (R80, R82). -/
inductive EncodedWord where
  | cw (w : BitVec 2)
  | dw (w : BitVec 16)
deriving DecidableEq, Repr

/-- The decoder: total on both formats (R81, R82). -/
def decode : EncodedWord → Instr
  | .cw w => decodeCw w
  | .dw w => decodeDw w

/-- Why a number of so many bits is no word of the block. -/
inductive DecodeError where
  /-- no format has this many bits: a control word takes one byte, a decode word two -/
  | noSuchFormat (nbits : Nat)
  /-- a bit above the format's width is set -/
  | bitAboveFormat (w : Nat)
deriving DecidableEq, Repr

/-- A number of `nbits` bits, as spec/opcode_table.json numbers them, read as a word: the CW rows have 2 bits (one whole
byte), the DW rows 16. -/
def readTableWord (nbits w : Nat) : Except DecodeError EncodedWord :=
  if nbits = 0 ∨ 16 < nbits then .error (.noSuchFormat nbits)
  else if nbits ≤ 8 then
    if w < 2 ^ 2 then .ok (.cw (BitVec.ofNat 2 w)) else .error (.bitAboveFormat w)
  else if w < 2 ^ 16 then .ok (.dw (BitVec.ofNat 16 w)) else .error (.bitAboveFormat w)

/-- The instruction the decoder reads from a word of the opcode table; `none` where the number is no word of the block. -/
def decodeTableWord (nbits w : Nat) : Option Instr :=
  match readTableWord nbits w with
  | .ok e => some (decode e)
  | .error _ => none

/-- The encoder: the word of an instruction at an instance and position, each field the row fixes written as the row has it
and each field it leaves free taken from the arguments (the "encoding" column of spec/opcode_table.json, R80 to R82). -/
def encode (m : Mode) (idx : BitVec 5) : Instr → EncodedWord
  | .idleStart => .dw (packDw m .idle idx 0x0F#8)
  | .idleSkip b => .dw (packDw m .idle idx b)
  | .collRestart => .dw (packDw m .collect idx 0x0F#8)
  | .collChanSplit b => .dw (packDw .split .collect 22#5 b)
  | .collChanUnified b => .dw (packDw .unified .collect 23#5 b)
  | .collAccum b => .dw (packDw m .collect idx b)
  | .flgsRestart => .dw (packDw m .flags idx 0x0F#8)
  | .flgsDecode b => .dw (packDw m .flags idx b)
  | .awstStop => .dw (packDw m .awaitStop idx 0x00#8)
  | .awstDesync b => .dw (packDw m .awaitStop idx b)
  | .reset inValid => .cw (packCw true inValid)
  | .beat => .cw (packCw false true)
  | .idleEdge => .cw (packCw false false)

/-- The instance and position at which a table word is presented: the word's own m and i fields where R87 lists its triple
as reachable. A word no edge forms (R87) names only its class; it is presented in the first reachable position of that
class's state (DESIGN CHOICE, log entry 5). -/
def presentedAt (w : BitVec 16) : Mode × BitVec 5 :=
  if reachableTriple (dwMode w) (dwSt w) (dwIdx w) then (dwMode w, dwIdx w)
  else match dwSt w with
    | .idle => (dwMode w, 0#5)
    | .collect => (dwMode w, 1#5)
    | .flags => (.split, 23#5)
    | .awaitStop => (dwMode w, 24#5)

end Sys2Proof
end

