-- ==== Sys2Proof/Machine/State.lean ====
section
/-! DEFINITION. The block's state as plain data: every register the spec names (R24, R32), for any timestamp width TSW (R7),
with the block's MODE (R6) and the values its environment will still present on the input ports (R20). -/

namespace Sys2Proof.Machine

/-- The payload buffer `buf[0..22]` (R27, R60), the block's only storage array: (entry, byte) pairs in the one canonical form
`Memory.wf` (Ops.lean). An unlisted entry reads as 0, the reset value of every entry (R27, R230). -/
abbrev Memory := List Host.Cell

/-- The values on the input ports of a block of timestamp width `tsw` at one rising edge of clk (R20). -/
structure Ports (tsw : Nat) where
  rst : Bool
  inValid : Bool
  inByte : Byte
  inTsStart : Timestamp tsw
  inTsEnd : Timestamp tsw
deriving DecidableEq, Repr

/-- What stops the machine. The block itself has no fault (R200): the one below is never reached by a step, as an obligation
states. -/
inductive Fault where
  /-- Raised by COLL_ACCUM when it would write a buffer entry that does not exist (R60 gives entries 0 to 22 only). Safe: it
  stops, and the guard on reachable positions (R87) comes before it, so no step raises it. -/
  | noBufferEntry (k : Nat)
deriving DecidableEq, Repr

/-- What the machine gives no meaning to. -/
inductive Refusal where
  /-- Raised by `exec` for a constructor without a meaning yet; no arm answers it in this model. Safe. -/
  | notModelled (mnemonic : String)
  /-- Raised by every beat, class and idle edge in a register state outside the reachable (MODE, st, idx) triples (R87, I7:
  "the step refuses with a named reason"). Safe: no run from reset meets it. -/
  | unreachableState
  /-- Raised by a meaning that `exec` is asked for when the edge at the input ports is another one (the class rules R102 to
  R111 are stated only for the beat that selects them). Safe: a step never asks for it. -/
  | notPresented
deriving DecidableEq, Repr

/-- A block of timestamp width `tsw`: its MODE, its registers, and what it will be presented with. -/
structure Block (tsw : Nat) where
  /-- MODE, fixed for the life of the block (R6); no step changes it. -/
  mode : Mode
  /-- st, 2 bits (R25). -/
  st : St
  /-- idx, 5 bits: the frame position of the next expected byte (R26). -/
  idx : BitVec 5
  /-- buf[0..22], 8 bits each (R27). -/
  buf : Memory
  /-- fs, TSW bits: the start timestamp of the byte at frame position 1 (R28). -/
  fs : Timestamp tsw
  /-- ev_valid (R22, R32). -/
  evValid : Bool
  /-- ev_kind, 3 bits (R22, R84). -/
  evKind : EvKind
  /-- ev_err, 2 bits (R22, R85). -/
  evErr : EvErr
  /-- ev_ts_start, TSW bits (R22). -/
  evTsStart : Timestamp tsw
  /-- ev_ts_end, TSW bits (R22). -/
  evTsEnd : Timestamp tsw
  /-- ch_raw[0..15], 11 bits each (R22). -/
  chRaw : Channels
  /-- flags_byte, 8 bits (R22). -/
  flagsByte : Byte
  /-- The model's own field: the values the environment presents at the coming edges, the next one first (log entry 3). -/
  inputs : List (Ports tsw)
deriving DecidableEq, Repr

/-- The machine's state: the parameter TSW it was built with (R7), which no step changes, and a block of that width. -/
structure State where
  tsw : Nat
  block : Block tsw
deriving DecidableEq, Repr

/-- The state of a block after a reset edge (R230, the table of 10_state.md section 5), for every MODE and every TSW, nothing
presented yet. -/
def Block.reset (m : Mode) (tsw : Nat) : Block tsw where
  mode := m
  st := .idle
  idx := 0#5
  buf := []
  fs := 0#tsw
  evValid := false
  evKind := .none
  evErr := .none
  evTsStart := 0#tsw
  evTsEnd := 0#tsw
  chRaw := Vector.replicate 16 0#11
  flagsByte := 0#8
  inputs := []

/-- The machine right after reset (R231). The spec leaves MODE to whoever builds a block (R6) and TSW to whoever models it
(R7); this is the split-mode block with 64-bit timestamps (DESIGN CHOICE, log entries 1 and 2), and every statement
quantifies over blocks of both modes and every width. -/
def State.reset : State := ⟨f64Width, Block.reset .split f64Width⟩

end Sys2Proof.Machine
end

