-- ==== Sys2Proof/Machine/Ops.lean ====
section
/-! DEFINITION. The named operations: the payload buffer (20_memory.md), the frame helpers (R100), the event record (R34) and
the one write of the output registers (R32), and the recovery entries of the two errors (R206). There is no return from an
error: recovery ends within the edge (R207). -/

namespace Sys2Proof.Machine

variable {tsw : Nat}

/-- What every meaning and the step answer. -/
abbrev Result := Host.Outcome State Fault Refusal

/-- The canonical form of the buffer: entries strictly rising, below BUF_ENTRIES, none listed with the value 0 that an
unlisted entry reads as. -/
abbrev Memory.wf (m : Memory) : Prop :=
  m.Pairwise (fun x y => x.1 < y.1) ∧ ∀ c ∈ m, c.1 < bufEntries ∧ c.2 ≠ 0#8

/-- The byte at entry `k`; an unlisted entry reads as 0 (R27, R70). -/
def Memory.get : Memory → Nat → Byte
  | [], _ => 0#8
  | (a, x) :: m, k => if a = k then x else Memory.get m k

/-- List `v` at entry `k`, keeping the canonical form: writing 0 removes the entry. -/
def Memory.put : Memory → Nat → Byte → Memory
  | [], k, v => if v = 0#8 then [] else [(k, v)]
  | (a, x) :: m, k, v =>
    if k < a then (if v = 0#8 then (a, x) :: m else (k, v) :: (a, x) :: m)
    else if k = a then (if v = 0#8 then m else (k, v) :: m)
    else (a, x) :: Memory.put m k v

/-- `BufRead(k)` (R10, R60); entries 0 to 22 are all there are. -/
def bufRead (m : Memory) (k : Nat) : Option Byte := if k < bufEntries then some (m.get k) else none

/-- `BufWrite(k, v)` (R10, R61); entries 0 to 22 are all there are. -/
def bufWrite (m : Memory) (k : Nat) (v : Byte) : Option Memory := if k < bufEntries then some (m.put k v) else none

/-- `ClearFrame()`, the Idle baseline (R100). -/
def clearFrame (s : Block tsw) : Block tsw := { s with st := .idle, idx := 0#5, fs := 0#tsw, buf := [] }

/-- `StartFrame()`: a start-sync byte opens a frame (R100). -/
def startFrame (s : Block tsw) : Block tsw := { s with st := .collect, idx := 1#5, fs := 0#tsw, buf := [] }

/-- `len`, the buffer's occupancy: a function of (st, idx), not a register (R27). -/
def Block.len (s : Block tsw) : Nat :=
  match s.st with
  | .idle => 0
  | .collect => s.idx.toNat - 1
  | .flags => 22
  | .awaitStop => cap s.mode

/-- The kind of an event record with the payload that kind carries (R34): only a CHAN has raw channels and only a FLAG has a
flags byte. -/
inductive EventBody where
  | none
  | start
  | chan (raw : Channels)
  | flag (flags : Byte)
  | stop
  | desync
deriving DecidableEq, Repr

/-- `E.kind` (R34, R84). -/
def EventBody.kind : EventBody → EvKind
  | .none => .none
  | .start => .start
  | .chan _ => .chan
  | .flag _ => .flag
  | .stop => .stop
  | .desync => .desync

/-- The raw channels `ch_raw` takes on an event: `E.raw` on a CHAN, else its old value (R32). -/
def EventBody.rawOr (old : Channels) : EventBody → Channels
  | .none => old
  | .start => old
  | .chan raw => raw
  | .flag _ => old
  | .stop => old
  | .desync => old

/-- The byte `flags_byte` takes on an event: `E.flags` on a FLAG, else its old value (R32). -/
def EventBody.flagsOr (old : Byte) : EventBody → Byte
  | .none => old
  | .start => old
  | .chan _ => old
  | .flag flags => flags
  | .stop => old
  | .desync => old

/-- The event record E of one beat (R34). -/
structure Event (tsw : Nat) where
  body : EventBody
  err : EvErr
  tsStart : Timestamp tsw
  tsEnd : Timestamp tsw
deriving DecidableEq, Repr

/-- `UpdateOutputs(E)` (R32). -/
def updateOutputs (e : Event tsw) (s : Block tsw) : Block tsw :=
  { s with
    evValid := e.body.kind != .none
    evKind := e.body.kind
    evErr := e.err
    evTsStart := e.tsStart
    evTsEnd := e.tsEnd
    chRaw := e.body.rawOr s.chRaw
    flagsByte := e.body.flagsOr s.flagsByte }

/-- The edge is over: the next step samples the next values on the ports (R20, R235). -/
def Block.nextEdge (s : Block tsw) : Block tsw := { s with inputs := s.inputs.tail }

/-- The end of every beat: the core registers as `core` has them and the record's outputs commit together (R101, R235).
TSW is the block's own. -/
def commit (e : Event tsw) (core : Block tsw) : Result := .next ⟨tsw, (updateOutputs e core).nextEdge⟩

/-- Recovery from PrematureStart (R202, R206): the in-flight frame is dropped and a new one opens at this byte; the record is
a START that carries the error code. -/
def recoverPrematureStart (t0 t1 : Timestamp tsw) (s : Block tsw) : Result :=
  commit ⟨.start, .prematureStart, t0, t1⟩ (startFrame s)

/-- Recovery from BadTerminator (R203, R206): back to the Idle baseline with the byte consumed; the record is a DESYNC. -/
def recoverBadTerminator (t0 t1 : Timestamp tsw) (s : Block tsw) : Result :=
  commit ⟨.desync, .badTerminator, t0, t1⟩ (clearFrame s)

end Sys2Proof.Machine
end

