-- ==== Sys2Proof/Machine/Operands.lean ====
section
/-! DEFINITION. Operand forms: the values sampled at the input ports (R20), the two words formed from them and the state
(R80, R82), which instruction the edge presents, and the operand of the bit-slicer (R150). -/

namespace Sys2Proof.Machine

variable {tsw : Nat}

/-- The ports when the environment presents nothing: neither reset nor a byte (R21, an idle edge; log entry 3). -/
def Ports.quiet (tsw : Nat) : Ports tsw := ⟨false, false, 0#8, 0#tsw, 0#tsw⟩

/-- The values on the input ports at this edge (R20). -/
def Block.ports (s : Block tsw) : Ports tsw := s.inputs.headD (Ports.quiet tsw)

/-- The control word of this edge (R82). -/
def Block.controlWord (s : Block tsw) : BitVec 2 := packCw s.ports.rst s.ports.inValid

/-- The decode word of this edge (R80); it matters only on a beat (R82). -/
def Block.decodeWord (s : Block tsw) : BitVec 16 := packDw s.mode s.st s.idx s.ports.inByte

/-- The registers are in a reachable (MODE, st, idx) triple (R87). -/
def Block.reachable (s : Block tsw) : Bool := reachableTriple s.mode s.st s.idx

/-- The edge at the ports is an edge of this kind, or a beat of this class (R21, R81, R82). -/
def Block.presents (s : Block tsw) (i : Instr) : Bool :=
  decodeCw s.controlWord == i || (decodeCw s.controlWord == .beat && decodeDw s.decodeWord == i)

/-- A meaning runs on the edge that presents its instruction, with that edge's two timestamps (R83). -/
def onEdge (i : Instr) (s : Block tsw) (perform : Timestamp tsw → Timestamp tsw → Result) : Result :=
  if s.presents i then perform s.ports.inTsStart s.ports.inTsEnd else .refused .notPresented

/-- The same, refused in a register state outside the reachable triples, where no rule is stated (R87, I7). -/
def onReachableEdge (i : Instr) (s : Block tsw) (perform : Timestamp tsw → Timestamp tsw → Result) : Result :=
  if s.reachable then onEdge i s perform else .refused .unreachableState

/-- The first 22 entries of the buffer, `[buf[0], ..., buf[21]]`: the slicer's operand in unified mode (R107, R150). -/
def analogBytes (m : Memory) : AnalogBytes := Vector.ofFn fun k => m.get k.val

/-- `[buf[0], ..., buf[20], b]`: the slicer's operand in split mode, the last byte being the beat's own (R106, R150). -/
def analogBytesWith (m : Memory) (b : Byte) : AnalogBytes := (analogBytes m).set 21 b

end Sys2Proof.Machine
end

