-- ==== Sys2Proof/Machine/AwaitStop.lean ====
section
/-! DEFINITION. The classes of AWAIT_STOP: AWST_STOP (R110) and AWST_DESYNC (R111). -/

namespace Sys2Proof.Machine

/-- AWST_STOP (R110): `ClearFrame(); emit(STOP, ERR_NONE, t0, t1)`. -/
def execAwstStop (s : State) : Result :=
  onReachableEdge .awstStop s.block fun t0 t1 => commit ⟨.stop, .none, t0, t1⟩ (clearFrame s.block)

/-- AWST_DESYNC (R111): `ClearFrame(); emit(DESYNC, ERR_BAD_TERMINATOR, t0, t1)`; the byte is consumed and its value is not
reported. -/
def execAwstDesync (b : Byte) (s : State) : Result :=
  onReachableEdge (.awstDesync b) s.block fun t0 t1 => recoverBadTerminator t0 t1 s.block

end Sys2Proof.Machine
end

