-- ==== Sys2Proof/Machine/Slicer.lean ====
section
/-! DEFINITION. The payload bit-slicer (41_channel_unpack.md): Unpack, Scale, the flat channel bus, and pack, the inverse
that test vectors use. -/

namespace Sys2Proof.Machine

/-- The little-endian number of a list of bytes: `sum_k P[k] * 2^(8*k)` (R64, R152). -/
def bytesToNat : List Byte → Nat
  | [] => 0
  | b :: bs => b.toNat + 2 ^ 8 * bytesToNat bs

/-- The number of a list of channels: `sum_i r_i * 2^(11*i)` (R154, R156). -/
def channelsToNat : List RawChannel → Nat
  | [] => 0
  | r :: rs => r.toNat + 2 ^ 11 * channelsToNat rs

/-- The 176-bit payload stream B, bit k of weight 2^k (R64, R151). -/
def payloadStream (p : AnalogBytes) : BitVec 176 := BitVec.ofNat 176 (bytesToNat p.toList)

/-- `Unpack(P)[i]` is the field `B[11*i .. 11*i+10]` (R65, R152). -/
def unpack (p : AnalogBytes) : Channels := Vector.ofFn fun i => (payloadStream p).extractLsb' (11 * i.val) 11

/-- The flat channel bus `ch_raw_bus[175:0]` (R23). -/
def channelBus (r : Channels) : BitVec 176 := BitVec.ofNat 176 (channelsToNat r.toList)

/-- `pack(r0, ..., r15)[k] = (sum_i r_i * 2^(11*i)) div 2^(8*k) mod 256` (R156). -/
def pack (r : Channels) : AnalogBytes := Vector.ofFn fun k => (channelBus r).extractLsb' (8 * k.val) 8

/-- `Scale(r) = ((r * 1024) div 1639) + 881` (R155), exact on naturals and narrowed to its 12 bits at the end. -/
def scale (r : RawChannel) : ScaledChannel := BitVec.ofNat 12 (r.toNat * scaleMul / scaleDiv + scaleOfs)

end Sys2Proof.Machine
end

