-- ==== Sys2Proof/Machine/Collect.lean ====
section
/-! DEFINITION. The classes of COLLECT: COLL_RESTART (R104), COLL_ACCUM (R105), COLL_CHAN_SPLIT (R106) and
COLL_CHAN_UNIFIED (R107). -/

namespace Sys2Proof.Machine

/-- COLL_RESTART (R104): `StartFrame(); emit(START, ERR_PREMATURE_START, t0, t1)`. -/
def execCollRestart (s : State) : Result :=
  onReachableEdge .collRestart s.block fun t0 t1 => recoverPrematureStart t0 t1 s.block

/-- COLL_ACCUM (R105): at frame position 1 the span's start timestamp is latched; the byte goes to `buf[idx - 1]` and idx
advances. -/
def execCollAccum (b : Byte) (s : State) : Result :=
  onReachableEdge (.collAccum b) s.block fun t0 t1 =>
    match bufWrite s.block.buf (s.block.idx.toNat - 1) b with
    | some buf =>
      commit ⟨.none, .none, t0, t1⟩
        { s.block with fs := if s.block.idx = 1#5 then t0 else s.block.fs, buf := buf, idx := s.block.idx + 1#5 }
    | none => .fault (.noBufferEntry (s.block.idx.toNat - 1))

/-- COLL_CHAN_SPLIT (R106): the 22nd analog byte is stored, the 16 channels are unpacked from the 21 stored bytes and this
one, and the flags byte is due; the CHAN record's span is `(fs, t1)` (R116). -/
def execCollChanSplit (b : Byte) (s : State) : Result :=
  onReachableEdge (.collChanSplit b) s.block fun _ t1 =>
    commit ⟨.chan (unpack (analogBytesWith s.block.buf b)), .none, s.block.fs, t1⟩
      { s.block with buf := s.block.buf.put 21 b, st := .flags, idx := 23#5 }

/-- COLL_CHAN_UNIFIED (R107): the folded flags byte is stored and never read, the 16 channels are unpacked from the first 22
stored bytes, and the stop byte is due. -/
def execCollChanUnified (b : Byte) (s : State) : Result :=
  onReachableEdge (.collChanUnified b) s.block fun _ t1 =>
    commit ⟨.chan (unpack (analogBytes s.block.buf)), .none, s.block.fs, t1⟩
      { s.block with buf := s.block.buf.put 22 b, st := .awaitStop, idx := 24#5 }

end Sys2Proof.Machine
end

