-- ==== Sys2Proof/Machine/Flags.lean ====
section
/-! DEFINITION. The flag interpreter (42_flags.md): the four flag wires of a flags byte and the ordered label list. -/

namespace Sys2Proof.Machine

/-- `flag_ch17`: bit 0 of the flags byte (R35, R181). -/
def flagCh17 (f : Byte) : Bool := f.getLsbD 0

/-- `flag_ch18`: bit 1 (R35, R181). -/
def flagCh18 (f : Byte) : Bool := f.getLsbD 1

/-- `flag_frame_lost`: bit 2 (R35, R181). -/
def flagFrameLost (f : Byte) : Bool := f.getLsbD 2

/-- `flag_failsafe`: bit 3 (R35, R181). Bits 4 to 7 drive no wire (R185). -/
def flagFailsafe (f : Byte) : Bool := f.getLsbD 3

/-- The four flag labels of R181. -/
inductive FlagLabel where
  | failsafeActive
  | frameLost
  | channel18Active
  | channel17Active
deriving DecidableEq, Repr

/-- The source's quoted text of a label (R181). Joining labels into one string is outside the block (R183, I10). -/
def FlagLabel.text : FlagLabel → String
  | .failsafeActive => "Failsafe active"
  | .frameLost => "Frame lost"
  | .channel18Active => "Channel 18 active"
  | .channel17Active => "Channel 17 active"

/-- `Labels(F)`, highest bit first (R183). -/
def labels (f : Byte) : List FlagLabel :=
  (if flagFailsafe f then [.failsafeActive] else []) ++ (if flagFrameLost f then [.frameLost] else [])
    ++ (if flagCh18 f then [.channel18Active] else []) ++ (if flagCh17 f then [.channel17Active] else [])

end Sys2Proof.Machine
end

