-- ==== Sys2Proof/Machine/FlagsPhase.lean ====
section
/-! DEFINITION. The classes of FLAGS, split mode only: FLGS_RESTART (R108) and FLGS_DECODE (R109). -/

namespace Sys2Proof.Machine

/-- FLGS_RESTART (R108): `StartFrame(); emit(START, ERR_PREMATURE_START, t0, t1)`. -/
def execFlgsRestart (s : State) : Result :=
  onReachableEdge .flgsRestart s.block fun t0 t1 => recoverPrematureStart t0 t1 s.block

/-- FLGS_DECODE (R109): `emit(FLAG, ERR_NONE, t0, t1) with E.flags = b`; the buffer is not written (R61). -/
def execFlgsDecode (b : Byte) (s : State) : Result :=
  onReachableEdge (.flgsDecode b) s.block fun t0 t1 =>
    commit ⟨.flag b, .none, t0, t1⟩ { s.block with st := .awaitStop, idx := 24#5 }

end Sys2Proof.Machine
end

