-- ==== Sys2Proof/Machine/Hunt.lean ====
section
/-! DEFINITION. The classes of IDLE, hunting for a start-sync byte: IDLE_START (R102) and IDLE_SKIP (R103). -/

namespace Sys2Proof.Machine

/-- IDLE_START (R102): `StartFrame(); emit(START, ERR_NONE, t0, t1)`. -/
def execIdleStart (s : State) : Result :=
  onReachableEdge .idleStart s.block fun t0 t1 => commit ⟨.start, .none, t0, t1⟩ (startFrame s.block)

/-- IDLE_SKIP (R103): `emit(NONE, ERR_NONE, t0, t1)`; no core register changes. -/
def execIdleSkip (b : Byte) (s : State) : Result :=
  onReachableEdge (.idleSkip b) s.block fun t0 t1 => commit ⟨.none, .none, t0, t1⟩ s.block

end Sys2Proof.Machine
end

