-- ==== Sys2Proof/Machine/Edges.lean ====
section
/-! DEFINITION. The three kinds of clock edge (R21): RESET (R230), BEAT (R101) and IDLE_EDGE (R237). -/

namespace Sys2Proof.Machine

/-- RESET (R230 to R233): every register takes its reset value, in any register state; a byte presented at this edge is
ignored and not held. MODE and TSW are no registers (R6, R7), and the values presented at later edges are the
environment's. -/
def execReset (inValid : Bool) (s : State) : Result :=
  onEdge (.reset inValid) s.block fun _ _ =>
    .next ⟨s.tsw, { Block.reset s.block.mode s.tsw with inputs := s.block.inputs.tail }⟩

/-- IDLE_EDGE (R237): the core state holds, the event fields are cleared, and the timestamps, ch_raw and flags_byte keep
their values. -/
def execIdleEdge (s : State) : Result :=
  onReachableEdge .idleEdge s.block fun _ _ =>
    .next ⟨s.tsw, { s.block with evValid := false, evKind := .none, evErr := .none, inputs := s.block.inputs.tail }⟩

/-- The class of a beat performed (R101, `Perform`). The last three arms are kinds of edge, which no decode word selects
(`decodeDw_is_class` in Laws/Decode.lean). -/
def performClass (i : Instr) (s : State) : Result :=
  match i with
  | .idleStart => execIdleStart s
  | .idleSkip b => execIdleSkip b s
  | .collRestart => execCollRestart s
  | .collChanSplit b => execCollChanSplit b s
  | .collChanUnified b => execCollChanUnified b s
  | .collAccum b => execCollAccum b s
  | .flgsRestart => execFlgsRestart s
  | .flgsDecode b => execFlgsDecode b s
  | .awstStop => execAwstStop s
  | .awstDesync b => execAwstDesync b s
  | .reset _ => .refused .notPresented
  | .beat => .refused .notPresented
  | .idleEdge => .refused .notPresented

/-- BEAT (R101): the decode word is formed and classified, and the class is performed. -/
def execBeat (s : State) : Result :=
  onReachableEdge .beat s.block fun _ _ => performClass (decodeDw s.block.decodeWord) s

end Sys2Proof.Machine
end

