-- ==== Sys2Proof/Machine/Dispatch.lean ====
section
/-! DEFINITION. One arm per constructor of Instr, each one direct call of its meaning. -/

namespace Sys2Proof.Machine

def exec (i : Instr) (s : State) : Host.Outcome State Fault Refusal :=
  match i with
  | .idleStart => Sys2Proof.Machine.execIdleStart s
  | .idleSkip b => Sys2Proof.Machine.execIdleSkip b s
  | .collRestart => Sys2Proof.Machine.execCollRestart s
  | .collChanSplit b => Sys2Proof.Machine.execCollChanSplit b s
  | .collChanUnified b => Sys2Proof.Machine.execCollChanUnified b s
  | .collAccum b => Sys2Proof.Machine.execCollAccum b s
  | .flgsRestart => Sys2Proof.Machine.execFlgsRestart s
  | .flgsDecode b => Sys2Proof.Machine.execFlgsDecode b s
  | .awstStop => Sys2Proof.Machine.execAwstStop s
  | .awstDesync b => Sys2Proof.Machine.execAwstDesync b s
  | .reset inValid => Sys2Proof.Machine.execReset inValid s
  | .beat => Sys2Proof.Machine.execBeat s
  | .idleEdge => Sys2Proof.Machine.execIdleEdge s

end Sys2Proof.Machine
end

