-- ==== Sys2Proof/Machine/Fetch.lean ====
section
/-! DEFINITION. Presenting a word of the opcode table at the next edge: the counterpart, on a block that fetches nothing
(R71), of storing an instruction where the next step fetches it. -/

namespace Sys2Proof.Machine

variable {tsw : Nat}

/-- The next edge's port values are `p`. -/
def Block.present (p : Ports tsw) (s : Block tsw) : Block tsw := { s with inputs := p :: s.inputs.tail }

/-- The next edge carries the control word `w` (R82); the byte and timestamps presented with it stay. -/
def Block.presentCw (w : BitVec 2) (s : Block tsw) : Block tsw :=
  s.present { s.ports with rst := w.getLsbD 1, inValid := w.getLsbD 0 }

/-- The next edge is a beat of the decode word `w` (R80): its byte at the ports, and the instance and sequencing registers
its other fields name. -/
def Block.presentDw (w : BitVec 16) (s : Block tsw) : Block tsw :=
  Block.present { s.ports with rst := false, inValid := true, inByte := dwByte w }
    { s with mode := (presentedAt w).1, st := dwSt w, idx := (presentedAt w).2 }

/-- The next edge carries the word, where the number is one. -/
def Block.presentWord (nbits w : Nat) (s : Block tsw) : Block tsw :=
  match readTableWord nbits w with
  | .ok (.cw c) => s.presentCw c
  | .ok (.dw d) => s.presentDw d
  | .error _ => s

end Sys2Proof.Machine
end

