-- ==== Sys2Proof/Machine/Step.lean ====
section
/-! DEFINITION. One step is one rising edge of clk (R21, R235): the control word at the ports is decoded, before the decode
word (R82), and the edge of that kind runs; a beat decodes its own class. -/

namespace Sys2Proof.Machine

/-- One rising edge of clk. -/
def step (s : State) : Host.Outcome State Fault Refusal := exec (decodeCw s.block.controlWord) s

/-- `s` with the opcode-table word presented at its next edge, so that the next step runs exactly that instruction. -/
def State.withFetchWord (s : State) (nbits w : Nat) : State := ⟨s.tsw, s.block.presentWord nbits w⟩

end Sys2Proof.Machine
end

