-- ==== Sys2Proof/Machine/Boundary.lean ====
section
/-! DEFINITION. The frame-boundary detector (R113): three signals of the decode word of every beat. -/

namespace Sys2Proof.Machine

/-- `start_detect = (b == SYNC_START) and (st in {IDLE, COLLECT, FLAGS})` (R113). -/
def startDetect (w : BitVec 16) : Bool :=
  dwByte w == syncStart && (dwSt w == .idle || dwSt w == .collect || dwSt w == .flags)

/-- `stop_detect = (b == SYNC_STOP) and (st == AWAIT_STOP)` (R113). -/
def stopDetect (w : BitVec 16) : Bool := dwByte w == syncStop && dwSt w == .awaitStop

/-- `bad_term = (b != SYNC_STOP) and (st == AWAIT_STOP)` (R113). -/
def badTerm (w : BitVec 16) : Bool := dwByte w != syncStop && dwSt w == .awaitStop

end Sys2Proof.Machine
end

