-- ==== Sys2Proof/Machine/Outputs.lean ====
section
/-! DEFINITION. The output ports (R22): the registers, their codes (R84, R85), the combinational outputs (R35), and the event
record a consumer samples in the cycle after an edge (R34, R236). -/

namespace Sys2Proof

/-- The 3-bit code of an event kind (R84). -/
def EvKind.code : EvKind → BitVec 3
  | .none => 0#3
  | .start => 1#3
  | .chan => 2#3
  | .flag => 3#3
  | .stop => 4#3
  | .desync => 5#3

/-- The 2-bit code of an error (R85). -/
def EvErr.code : EvErr → BitVec 2
  | .none => 0#2
  | .prematureStart => 1#2
  | .badTerminator => 2#2

end Sys2Proof

namespace Sys2Proof.Machine

variable {tsw : Nat}

/-- The values on the output ports (R22). -/
structure OutputPorts (tsw : Nat) where
  evValid : Bool
  evKind : BitVec 3
  evErr : BitVec 2
  evTsStart : Timestamp tsw
  evTsEnd : Timestamp tsw
  chRaw : Channels
  chScaled : Vector ScaledChannel 16
  flagsByte : Byte
  flagCh17 : Bool
  flagCh18 : Bool
  flagFrameLost : Bool
  flagFailsafe : Bool
  stO : BitVec 2
  idxO : BitVec 5
deriving DecidableEq, Repr

/-- The output ports in a state: the output registers and the fixed combinational functions of registers (R22, R35); they do
not depend on the input ports (R236). -/
def Block.outputPorts (s : Block tsw) : OutputPorts tsw where
  evValid := s.evValid
  evKind := s.evKind.code
  evErr := s.evErr.code
  evTsStart := s.evTsStart
  evTsEnd := s.evTsEnd
  chRaw := s.chRaw
  chScaled := Vector.ofFn fun i => scale s.chRaw[i]
  flagsByte := s.flagsByte
  flagCh17 := Sys2Proof.Machine.flagCh17 s.flagsByte
  flagCh18 := Sys2Proof.Machine.flagCh18 s.flagsByte
  flagFrameLost := Sys2Proof.Machine.flagFrameLost s.flagsByte
  flagFailsafe := Sys2Proof.Machine.flagFailsafe s.flagsByte
  stO := s.st.code
  idxO := s.idx

/-- The payload the output registers show beside the event kind (R34). -/
def Block.eventBody (s : Block tsw) : EventBody :=
  match s.evKind with
  | .none => .none
  | .start => .start
  | .chan => .chan s.chRaw
  | .flag => .flag s.flagsByte
  | .stop => .stop
  | .desync => .desync

/-- What a consumer samples in this cycle: one event where ev_valid is 1, none otherwise (R33, R239). -/
def Block.sampled (s : Block tsw) : List (Event tsw) :=
  if s.evValid then [⟨s.eventBody, s.evErr, s.evTsStart, s.evTsEnd⟩] else []

end Sys2Proof.Machine
end

