-- ==== Sys2Proof/Machine/Script.lean ====
section
/-! DEFINITION. The beat script (R91), the spec's notation for what the environment presents: each statement is the list of
port values of its edges. -/

namespace Sys2Proof.Machine.Script

variable {tsw : Nat}

/-- `reset`: one reset edge. R91 fixes rst = 1 alone. That in_valid, the byte and both timestamps are 0 is the model's choice
(DESIGN CHOICE, log entry 8), on which no register depends (R230, R232). -/
def reset : List (Ports tsw) := [⟨true, false, 0#8, 0#tsw, 0#tsw⟩]

/-- `beat 0xHH @ (a, b)`: one beat. -/
def beat (v : Byte) (a b : Timestamp tsw) : List (Ports tsw) := [⟨false, true, v, a, b⟩]

/-- One beat per listed byte, the `k`-th with the timestamps `ts k`. -/
def beatsWith (ts : Nat → Timestamp tsw × Timestamp tsw) : List Byte → List (Ports tsw)
  | [] => []
  | v :: vs => ⟨false, true, v, (ts 0).1, (ts 0).2⟩ :: beatsWith (fun k => ts (k + 1)) vs

/-- The timestamps of the `k`-th byte (from 0) of a script from `t0` on, `(t0 + 2k, t0 + 2k + 1)`: numbers in the script, TSW
bits at the ports. -/
def times (t0 k : Nat) : Timestamp tsw × Timestamp tsw := (BitVec.ofNat tsw (t0 + 2 * k), BitVec.ofNat tsw (t0 + 2 * k + 1))

/-- `beats [...] @ t0`: one beat per listed byte, the `k`-th at `(t0 + 2k, t0 + 2k + 1)`. -/
def beats (vs : List Byte) (t0 : Nat) : List (Ports tsw) := beatsWith (times t0) vs

/-- `idle n`: n idle edges. R91 fixes rst = 0 and in_valid = 0. That the byte and both timestamps are 0 is the model's choice
(DESIGN CHOICE, log entry 8), on which no register depends (R237). -/
def idle (n : Nat) : List (Ports tsw) := List.replicate n ⟨false, false, 0#8, 0#tsw, 0#tsw⟩

/-- The 25 bytes of a wire frame (R2): start-sync, 22 analog bytes, the flags byte, stop-sync. -/
def frameBytes (p : AnalogBytes) (f : Byte) : List Byte := syncStart :: (p.toList ++ [f, syncStop])

/-- `frame P F @ t0`: the 25-byte wire frame. -/
def frame (p : AnalogBytes) (f : Byte) (t0 : Nat) : List (Ports tsw) := beats (frameBytes p f) t0

end Sys2Proof.Machine.Script
end

