-- ==== Sys2Proof/Safety.lean ====
section
/-! DEFINITION. What a safe run is: the invariants the spec states of every reachable state (R37 to R41) with the canonical
form of the buffer, how a block's timestamps are renamed (R7), and the events a consumer samples along a run (R69, R239). -/

namespace Sys2Proof.Machine

variable {tsw : Nat}

/-- The invariants of every reachable state, R37 to R41, as far as one state shows them. -/
structure Inv (s : Block tsw) : Prop where
  /-- the buffer is in canonical form -/
  bufWf : Memory.wf s.buf
  /-- R37: in IDLE, idx and fs are 0 and every entry is 0 -/
  idle : s.st = .idle → s.idx = 0#5 ∧ s.fs = 0#tsw ∧ ∀ k, s.buf.get k = 0#8
  /-- R38: in COLLECT, 1 <= idx <= CAP, entries at or above len = idx - 1 are 0, and fs is 0 until position 1 is taken -/
  collect : s.st = .collect → 1 ≤ s.idx.toNat ∧ s.idx.toNat ≤ cap s.mode ∧ s.len = s.idx.toNat - 1 ∧
    (∀ k, s.len ≤ k → s.buf.get k = 0#8) ∧ (s.idx = 1#5 → s.fs = 0#tsw)
  /-- R39: FLAGS is split mode's, at idx 23 with 22 bytes taken and entry 22 still 0 -/
  flags : s.st = .flags → s.mode = .split ∧ s.idx = 23#5 ∧ s.len = 22 ∧ ∀ k, 22 ≤ k → s.buf.get k = 0#8
  /-- R40: in AWAIT_STOP, idx is 24 and len is CAP; in split mode entry 22 is still 0 -/
  awaitStop : s.st = .awaitStop → s.idx = 24#5 ∧ s.len = cap s.mode ∧ ∀ k, cap s.mode ≤ k → s.buf.get k = 0#8
  /-- R41: ev_valid is 1 exactly when the kind is not NONE -/
  valid : s.evValid = true ↔ s.evKind ≠ .none
  /-- R41: ERR_PREMATURE_START only with START -/
  premature : s.evErr = .prematureStart → s.evKind = .start
  /-- R41: ERR_BAD_TERMINATOR exactly with DESYNC -/
  badTerminator : s.evErr = .badTerminator ↔ s.evKind = .desync
  /-- R41, R186: in unified mode no FLAG and flags_byte is 0 -/
  unified : s.mode = .unified → s.evKind ≠ .flag ∧ s.flagsByte = 0#8

/-- The next edge is a beat of the byte `b` (R11, R21), met in a reachable triple (R87): the conditions under which the class
rules are stated. -/
structure BeatOf (s : Block tsw) (b : Byte) : Prop where
  reachable : s.reachable = true
  rst : s.ports.rst = false
  inValid : s.ports.inValid = true
  inByte : s.ports.inByte = b

/-- Two states, their buffers in canonical form, that differ at most in the buffer, and there at most in entry 22 (R62). -/
def SameButEntry22 (s s' : Block tsw) : Prop :=
  s' = { s with buf := s'.buf } ∧ Memory.wf s.buf ∧ Memory.wf s'.buf ∧ ∀ k, k < 22 → s.buf.get k = s'.buf.get k

/-- Every timestamp a block holds or will be presented with renamed by `f`, from its width to any other (R7). -/
def Block.mapTs {v : Nat} (f : Timestamp tsw → Timestamp v) (s : Block tsw) : Block v where
  mode := s.mode
  st := s.st
  idx := s.idx
  buf := s.buf
  fs := f s.fs
  evValid := s.evValid
  evKind := s.evKind
  evErr := s.evErr
  evTsStart := f s.evTsStart
  evTsEnd := f s.evTsEnd
  chRaw := s.chRaw
  flagsByte := s.flagsByte
  inputs := s.inputs.map fun p => ⟨p.rst, p.inValid, p.inByte, f p.inTsStart, f p.inTsEnd⟩

/-- An event as a consumer of a block of width `tsw` samples it. -/
structure Sample where
  tsw : Nat
  event : Event tsw
deriving DecidableEq, Repr

/-- What a consumer samples in this cycle. -/
def State.samples (s : State) : List Sample := s.block.sampled.map fun e => ⟨s.tsw, e⟩

/-- `n` edges from `s`: the events sampled in the cycles after them, in order (R69, R239), and the state after the last;
`none` if an edge gives no next state. -/
def runEvents : Nat → State → Option (List Sample × State)
  | 0, s => some ([], s)
  | n + 1, s =>
    match step s with
    | .next t => (runEvents n t).map fun r => (t.samples ++ r.1, r.2)
    | .fault _ => none
    | .refused _ => none

/-- The events of the edges `ps` from `s`, whatever `s` was to be presented with. -/
def eventsOf (ps : List (Ports tsw)) (s : Block tsw) : Option (List Sample) :=
  (runEvents ps.length ⟨tsw, { s with inputs := ps }⟩).map (·.1)

/-- How many of the next `n` edges carry a byte (R11). -/
def beatsIn (n : Nat) (s : Block tsw) : Nat := ((s.inputs.take n).filter (·.inValid)).length

/-- None of the next `n` edges is a reset edge. -/
def NoReset (n : Nat) (s : Block tsw) : Prop := ∀ p ∈ s.inputs.take n, p.rst = false

end Sys2Proof.Machine
end

