-- ==== Sys2Proof/Certificates/Slice0/Obligations.lean ====
section
/-! DEFINITION. The statements for the provers. Every state of the machine is `⟨w, s⟩`: the width w of its
timestamps (TSW) and a block s of that width; every statement quantifies over every width and over blocks of both modes.
`BeatOf s b` is "the next edge is a beat of byte b in a reachable triple", the condition under which the class rules are
stated (R11, R21, R87). "An inference of the spec" marks a rule that the spec itself tags `[derived: ...]`. -/

open Sys2Proof Sys2Proof.Machine

/-! ## The step -/

/-- R21: an edge is exactly one of three kinds, chosen by {rst, in_valid}; the step runs that kind, and on a beat it is also
the step of the class its decode word selects (R101). -/
def Obligations.StepRunsTheEdgePresented : Prop :=
  ∀ (w : Nat) (s : Block w),
    (s.ports.rst = true → step ⟨w, s⟩ = exec (.reset s.ports.inValid) ⟨w, s⟩) ∧
    (s.ports.rst = false → s.ports.inValid = true →
      step ⟨w, s⟩ = exec .beat ⟨w, s⟩ ∧ step ⟨w, s⟩ = exec (decodeDw s.decodeWord) ⟨w, s⟩) ∧
    (s.ports.rst = false → s.ports.inValid = false → step ⟨w, s⟩ = exec .idleEdge ⟨w, s⟩)

/-- R230, R232, R233: a reset edge, whatever in_valid is and in any register state, gives every register its reset value;
no event is reported and the byte is not held. MODE stays, and the edge is used up. -/
def Obligations.ResetEdgeClearsEveryRegister : Prop :=
  ∀ (w : Nat) (s : Block w) (v : Bool), s.ports.rst = true → s.ports.inValid = v →
    exec (.reset v) ⟨w, s⟩ = .next
      ⟨w, {
        mode := s.mode, st := .idle, idx := 0#5, buf := [], fs := 0#w, evValid := false, evKind := .none,
        evErr := .none, evTsStart := 0#w, evTsEnd := 0#w, chRaw := Vector.replicate 16 0#11, flagsByte := 0#8,
        inputs := s.inputs.tail }⟩

/-- R237: an idle edge holds the core state, clears ev_valid, ev_kind and ev_err, and keeps the timestamps, ch_raw and
flags_byte. -/
def Obligations.IdleEdgeHoldsTheCore : Prop :=
  ∀ (w : Nat) (s : Block w), s.reachable = true → s.ports.rst = false → s.ports.inValid = false →
    exec .idleEdge ⟨w, s⟩ = .next
      ⟨w, { s with evValid := false, evKind := .none, evErr := .none, inputs := s.inputs.tail }⟩

/-- R101: a beat of any byte, in every reachable triple, completes, and is the class of its decode word. -/
def Obligations.BeatPerformsItsClass : Prop :=
  ∀ (w : Nat) (s : Block w) (b : Byte), BeatOf s b →
    exec .beat ⟨w, s⟩ = exec (decodeDw (packDw s.mode s.st s.idx b)) ⟨w, s⟩ ∧ ∃ t, exec .beat ⟨w, s⟩ = .next ⟨w, t⟩

/-! ## Encoding -/

/-- R80: the decode word is formed from the parameter, the state and the input byte, field by field; the timestamps never
select. -/
def Obligations.DecodeWordLayout : Prop :=
  (∀ (m : Mode) (st : St) (idx : BitVec 5) (b : Byte),
    (packDw m st idx b).extractLsb' 15 1 = (if m = .split then 0#1 else 1#1) ∧
    (packDw m st idx b).extractLsb' 13 2 = st.code ∧
    (packDw m st idx b).extractLsb' 8 5 = idx ∧ (packDw m st idx b).extractLsb' 0 8 = b) ∧
  ∀ (w : Nat) (s : Block w) (rst inValid : Bool) (b : Byte) (t0 t1 : Timestamp w) (ps : List (Ports w)),
    ({ s with inputs := ⟨rst, inValid, b, t0, t1⟩ :: ps } : Block w).decodeWord = packDw s.mode s.st s.idx b

/-- R82: the two bits of the control word and its three rows; it is formed at every edge and decoded first, and the byte of
the decode word matters only on a BEAT edge. -/
def Obligations.ControlWordRows : Prop :=
  (∀ rst inValid : Bool, (packCw rst inValid).getLsbD 1 = rst ∧ (packCw rst inValid).getLsbD 0 = inValid) ∧
  (∀ w : BitVec 2,
    (w &&& 0b10#2 = 0b10#2 → decodeCw w = .reset (w.getLsbD 0)) ∧
    (w &&& 0b11#2 = 0b01#2 → decodeCw w = .beat) ∧ (w &&& 0b11#2 = 0b00#2 → decodeCw w = .idleEdge)) ∧
  (∀ (w : Nat) (s : Block w), step ⟨w, s⟩ = exec (decodeCw (packCw s.ports.rst s.ports.inValid)) ⟨w, s⟩) ∧
  ∀ (w : Nat) (s : Block w) (p : Ports w) (b : Byte) (ps : List (Ports w)), p.rst = true ∨ p.inValid = false →
    step ⟨w, { s with inputs := { p with inByte := b } :: ps }⟩ = step ⟨w, { s with inputs := p :: ps }⟩

/-- Words of the spec's vectors (V4, V5, V26, V38 and the opcode table's CW rows) decode to the rows they stand for. -/
def Obligations.SampleWordsDecode : Prop :=
  decodeTableWord 16 0x000F = some .idleStart ∧ decodeTableWord 16 0x00FF = some (.idleSkip 0xFF#8) ∧
  decodeTableWord 16 0x360F = some .collRestart ∧ decodeTableWord 16 0x3657 = some (.collChanSplit 0x57#8) ∧
  decodeTableWord 16 0xB70C = some (.collChanUnified 0x0C#8) ∧ decodeTableWord 16 0xB657 = some (.collAccum 0x57#8) ∧
  decodeTableWord 16 0x570F = some .flgsRestart ∧ decodeTableWord 16 0x570B = some (.flgsDecode 0x0B#8) ∧
  decodeTableWord 16 0xF800 = some .awstStop ∧ decodeTableWord 16 0x780F = some (.awstDesync 0x0F#8) ∧
  decodeTableWord 8 0b10 = some (.reset false) ∧ decodeTableWord 8 0b01 = some .beat ∧
  decodeTableWord 8 0b00 = some .idleEdge

/-- R81: a word's class is the first row, in priority order, whose mask and match fit it; rows 2, 6, 8 and 10 together cover
every word. -/
def Obligations.ClassIsTheFirstRowThatFits : Prop :=
  ∀ w : BitVec 16,
    (((([(⟨0x60FF#16, 0x000F#16⟩, .idleStart), (⟨0x6000#16, 0x0000#16⟩, .idleSkip (w.extractLsb' 0 8)),
      (⟨0x60FF#16, 0x200F#16⟩, .collRestart), (⟨0xFF00#16, 0x3600#16⟩, .collChanSplit (w.extractLsb' 0 8)),
      (⟨0xFF00#16, 0xB700#16⟩, .collChanUnified (w.extractLsb' 0 8)), (⟨0x6000#16, 0x2000#16⟩, .collAccum (w.extractLsb' 0 8)),
      (⟨0x60FF#16, 0x400F#16⟩, .flgsRestart), (⟨0x6000#16, 0x4000#16⟩, .flgsDecode (w.extractLsb' 0 8)),
      (⟨0x60FF#16, 0x6000#16⟩, .awstStop), (⟨0x6000#16, 0x6000#16⟩, .awstDesync (w.extractLsb' 0 8))] :
        List (DwRow × Instr)).find? fun r => w &&& r.1.mask == r.1.pattern).map (·.2)) = some (decodeDw w)) ∧
    (w &&& 0x6000#16 = 0x0000#16 ∨ w &&& 0x6000#16 = 0x2000#16 ∨ w &&& 0x6000#16 = 0x4000#16 ∨ w &&& 0x6000#16 = 0x6000#16)

/-- R90, an inference of the spec: per state, the map from input byte to class. -/
def Obligations.ClassPerStateAndByte : Prop :=
  ∀ (m : Mode) (idx : BitVec 5) (b : Byte),
    (decodeDw (packDw m .idle idx b) = if b = 0x0F#8 then .idleStart else .idleSkip b) ∧
    (decodeDw (packDw m .collect idx b) =
      if b = 0x0F#8 then .collRestart else if m = .split ∧ idx = 22#5 then .collChanSplit b
      else if m = .unified ∧ idx = 23#5 then .collChanUnified b else .collAccum b) ∧
    (decodeDw (packDw m .flags idx b) = if b = 0x0F#8 then .flgsRestart else .flgsDecode b) ∧
    (decodeDw (packDw m .awaitStop idx b) = if b = 0x00#8 then .awstStop else .awstDesync b)

/-- Decode and encode agree on every instruction, at every mode and position its row admits and for every byte its operand
line allows; the word also holds that mode, position and the class's own state. -/
def Obligations.DecodeOfEncode : Prop :=
  ∀ (i : Instr) (m : Mode) (idx : BitVec 5), i.wellFormed = true → i.admits m idx = true →
    decode (encode m idx i) = i ∧
    ∀ w, encode m idx i = .dw w → dwMode w = m ∧ dwIdx w = idx ∧ i.state? = some (dwSt w)

/-- The other direction: every word of either format is the encoding of the well-formed instruction it decodes to, at the
word's own mode and position, which that instruction's row admits. -/
def Obligations.EncodeOfDecode : Prop :=
  (∀ w : BitVec 16, encode (dwMode w) (dwIdx w) (decodeDw w) = .dw w ∧ (decodeDw w).wellFormed = true ∧
    (decodeDw w).admits (dwMode w) (dwIdx w) = true) ∧
  (∀ (m : Mode) (idx : BitVec 5) (w : BitVec 2), encode m idx (decodeCw w) = .cw w ∧ (decodeCw w).wellFormed = true)

/-- R113: the frame-boundary detector's three signals name exactly the start, stop and desync classes. -/
def Obligations.BoundarySignalsNameTheirClasses : Prop :=
  ∀ w : BitVec 16,
    (startDetect w = true ↔ decodeDw w = .idleStart ∨ decodeDw w = .collRestart ∨ decodeDw w = .flgsRestart) ∧
    (stopDetect w = true ↔ decodeDw w = .awstStop) ∧ (badTerm w = true ↔ ∃ b, decodeDw w = .awstDesync b)

/-- R87, an inference of the spec: the unreachable triples, the 50 reachable ones, and that a beat in an unreachable
triple is given no meaning: BEAT and the step refuse it by name. -/
def Obligations.UnreachableTriplesAreRefused : Prop :=
  (∀ (m : Mode) (st : St) (idx : BitVec 5), reachableTriple m st idx = false ↔
    (st = .idle ∧ idx.toNat ≠ 0) ∨ (st = .collect ∧ (idx.toNat = 0 ∨ idx.toNat > cap m)) ∨
    (st = .flags ∧ m = .unified) ∨ (st = .flags ∧ idx.toNat ≠ 23) ∨ (st = .awaitStop ∧ idx.toNat ≠ 24)) ∧
  (([Mode.split, .unified].flatMap fun m => [St.idle, .collect, .flags, .awaitStop].flatMap fun st =>
    (List.range 32).filter fun n => reachableTriple m st (BitVec.ofNat 5 n)).length = 50) ∧
  ∀ (w : Nat) (s : Block w), s.reachable = false → s.ports.rst = false → s.ports.inValid = true →
    step ⟨w, s⟩ = .refused .unreachableState ∧ exec .beat ⟨w, s⟩ = .refused .unreachableState ∧
    exec (decodeDw s.decodeWord) ⟨w, s⟩ = .refused .unreachableState

/-- The model's choice (log entry 4): in an unreachable triple every instruction but RESET is refused by the same name, idle
edges among them; elsewhere an instruction other than the one the edge presents is refused by its own name. -/
def Obligations.OtherInstructionsAreRefused : Prop :=
  ∀ (w : Nat) (s : Block w) (i : Instr),
    (s.reachable = false → (∀ v, i ≠ .reset v) → exec i ⟨w, s⟩ = .refused .unreachableState) ∧
    (s.reachable = true → s.presents i = false → exec i ⟨w, s⟩ = .refused .notPresented)

/-- R88: in every reachable state every byte value is legal input and none traps; one that matches no sync rule is taken as
payload, skipped in IDLE, or a bad terminator. -/
def Obligations.EveryByteIsLegal : Prop :=
  ∀ (w : Nat) (s : Block w) (b : Byte), BeatOf s b →
    (∃ t, step ⟨w, s⟩ = .next ⟨w, t⟩) ∧
    (startDetect s.decodeWord = false → stopDetect s.decodeWord = false →
      (s.st = .idle ∧ decodeDw s.decodeWord = .idleSkip b) ∨
      ((s.st = .collect ∨ s.st = .flags) ∧
        (decodeDw s.decodeWord = .collAccum b ∨ decodeDw s.decodeWord = .collChanSplit b ∨
          decodeDw s.decodeWord = .collChanUnified b ∨ decodeDw s.decodeWord = .flgsDecode b)) ∨
      (s.st = .awaitStop ∧ decodeDw s.decodeWord = .awstDesync b))

/-- R200: no instruction and no step faults, in any state; and from a reachable triple every step completes. -/
def Obligations.NothingFaultsOrStops : Prop :=
  (∀ (i : Instr) (w : Nat) (s : Block w) (f : Fault), exec i ⟨w, s⟩ ≠ .fault f) ∧
  (∀ (w : Nat) (s : Block w) (f : Fault), step ⟨w, s⟩ ≠ .fault f) ∧
  ∀ (w : Nat) (s : Block w), s.reachable = true → ∃ t, step ⟨w, s⟩ = .next ⟨w, t⟩ ∧ t.reachable = true

/-! ## The ten classes: the whole next state, so the frame as well -/

/-- R102. -/
def Obligations.IdleStartOpensAFrame : Prop :=
  ∀ (w : Nat) (s : Block w), BeatOf s 0x0F#8 → s.st = .idle →
    exec .idleStart ⟨w, s⟩ = .next
      ⟨w, { s with
        st := .collect, idx := 1#5, fs := 0#w, buf := [], evValid := true, evKind := .start, evErr := .none,
        evTsStart := s.ports.inTsStart, evTsEnd := s.ports.inTsEnd, inputs := s.inputs.tail }⟩

/-- R103. -/
def Obligations.IdleSkipChangesNoCoreRegister : Prop :=
  ∀ (w : Nat) (s : Block w) (b : Byte), BeatOf s b → s.st = .idle → b ≠ 0x0F#8 →
    exec (.idleSkip b) ⟨w, s⟩ = .next
      ⟨w, { s with
        evValid := false, evKind := .none, evErr := .none, evTsStart := s.ports.inTsStart, evTsEnd := s.ports.inTsEnd,
        inputs := s.inputs.tail }⟩

/-- R104, at every position 1 to CAP. -/
def Obligations.CollRestartDropsTheFrame : Prop :=
  ∀ (w : Nat) (s : Block w), BeatOf s 0x0F#8 → s.st = .collect →
    exec .collRestart ⟨w, s⟩ = .next
      ⟨w, { s with
        st := .collect, idx := 1#5, fs := 0#w, buf := [], evValid := true, evKind := .start, evErr := .prematureStart,
        evTsStart := s.ports.inTsStart, evTsEnd := s.ports.inTsEnd, inputs := s.inputs.tail }⟩

/-- R105, at every position 1 to CAP - 1. -/
def Obligations.CollAccumStoresOneByte : Prop :=
  ∀ (w : Nat) (s : Block w) (b : Byte), BeatOf s b → s.st = .collect → s.idx.toNat + 1 ≤ cap s.mode → b ≠ 0x0F#8 →
    exec (.collAccum b) ⟨w, s⟩ = .next
      ⟨w, { s with
        fs := if s.idx = 1#5 then s.ports.inTsStart else s.fs, buf := s.buf.put (s.idx.toNat - 1) b, idx := s.idx + 1#5,
        evValid := false, evKind := .none, evErr := .none, evTsStart := s.ports.inTsStart, evTsEnd := s.ports.inTsEnd,
        inputs := s.inputs.tail }⟩

/-- R106. -/
def Obligations.CollChanSplitEmitsTheChannels : Prop :=
  ∀ (w : Nat) (s : Block w) (b : Byte), BeatOf s b → s.mode = .split → s.st = .collect → s.idx = 22#5 → b ≠ 0x0F#8 →
    exec (.collChanSplit b) ⟨w, s⟩ = .next
      ⟨w, { s with
        buf := s.buf.put 21 b, st := .flags, idx := 23#5, evValid := true, evKind := .chan, evErr := .none,
        evTsStart := s.fs, evTsEnd := s.ports.inTsEnd,
        chRaw := unpack #v[s.buf.get 0, s.buf.get 1, s.buf.get 2, s.buf.get 3, s.buf.get 4, s.buf.get 5, s.buf.get 6,
          s.buf.get 7, s.buf.get 8, s.buf.get 9, s.buf.get 10, s.buf.get 11, s.buf.get 12, s.buf.get 13, s.buf.get 14,
          s.buf.get 15, s.buf.get 16, s.buf.get 17, s.buf.get 18, s.buf.get 19, s.buf.get 20, b],
        inputs := s.inputs.tail }⟩

/-- R107. -/
def Obligations.CollChanUnifiedEmitsTheChannels : Prop :=
  ∀ (w : Nat) (s : Block w) (b : Byte), BeatOf s b → s.mode = .unified → s.st = .collect → s.idx = 23#5 → b ≠ 0x0F#8 →
    exec (.collChanUnified b) ⟨w, s⟩ = .next
      ⟨w, { s with
        buf := s.buf.put 22 b, st := .awaitStop, idx := 24#5, evValid := true, evKind := .chan, evErr := .none,
        evTsStart := s.fs, evTsEnd := s.ports.inTsEnd,
        chRaw := unpack #v[s.buf.get 0, s.buf.get 1, s.buf.get 2, s.buf.get 3, s.buf.get 4, s.buf.get 5, s.buf.get 6,
          s.buf.get 7, s.buf.get 8, s.buf.get 9, s.buf.get 10, s.buf.get 11, s.buf.get 12, s.buf.get 13, s.buf.get 14,
          s.buf.get 15, s.buf.get 16, s.buf.get 17, s.buf.get 18, s.buf.get 19, s.buf.get 20, s.buf.get 21],
        inputs := s.inputs.tail }⟩

/-- R108. -/
def Obligations.FlgsRestartDropsTheFrame : Prop :=
  ∀ (w : Nat) (s : Block w), BeatOf s 0x0F#8 → s.st = .flags →
    exec .flgsRestart ⟨w, s⟩ = .next
      ⟨w, { s with
        st := .collect, idx := 1#5, fs := 0#w, buf := [], evValid := true, evKind := .start, evErr := .prematureStart,
        evTsStart := s.ports.inTsStart, evTsEnd := s.ports.inTsEnd, inputs := s.inputs.tail }⟩

/-- R109: the buffer is not written, and the four wires show bits 0 to 3 of the byte. -/
def Obligations.FlgsDecodeLatchesTheFlags : Prop :=
  ∀ (w : Nat) (s : Block w) (b : Byte), BeatOf s b → s.st = .flags → b ≠ 0x0F#8 →
    exec (.flgsDecode b) ⟨w, s⟩ = .next
      ⟨w, { s with
        st := .awaitStop, idx := 24#5, evValid := true, evKind := .flag, evErr := .none,
        evTsStart := s.ports.inTsStart, evTsEnd := s.ports.inTsEnd, flagsByte := b, inputs := s.inputs.tail }⟩

/-- R110. -/
def Obligations.AwstStopClosesTheFrame : Prop :=
  ∀ (w : Nat) (s : Block w), BeatOf s 0x00#8 → s.st = .awaitStop →
    exec .awstStop ⟨w, s⟩ = .next
      ⟨w, { s with
        st := .idle, idx := 0#5, fs := 0#w, buf := [], evValid := true, evKind := .stop, evErr := .none,
        evTsStart := s.ports.inTsStart, evTsEnd := s.ports.inTsEnd, inputs := s.inputs.tail }⟩

/-- R111: any byte but 0x00, the start-sync byte among them. -/
def Obligations.AwstDesyncDropsBackToIdle : Prop :=
  ∀ (w : Nat) (s : Block w) (b : Byte), BeatOf s b → s.st = .awaitStop → b ≠ 0x00#8 →
    exec (.awstDesync b) ⟨w, s⟩ = .next
      ⟨w, { s with
        st := .idle, idx := 0#5, fs := 0#w, buf := [], evValid := true, evKind := .desync, evErr := .badTerminator,
        evTsStart := s.ports.inTsStart, evTsEnd := s.ports.inTsEnd, inputs := s.inputs.tail }⟩

/-! ## What steps write -/

/-- R31, an inference of the spec: how every beat moves the pair (st, idx), which never wraps. -/
def Obligations.EveryBeatAdvancesThePair : Prop :=
  ∀ (w : Nat) (s t : Block w) (b : Byte), BeatOf s b → step ⟨w, s⟩ = .next ⟨w, t⟩ →
    t.idx.toNat ≤ 24 ∧
    (t.st, t.idx) =
      match s.st with
      | .idle => if b = 0x0F#8 then (.collect, 1#5) else (.idle, 0#5)
      | .collect =>
        if b = 0x0F#8 then (.collect, 1#5)
        else if s.idx.toNat < cap s.mode then (.collect, BitVec.ofNat 5 (s.idx.toNat + 1))
        else if s.mode = .split then (.flags, 23#5) else (.awaitStop, 24#5)
      | .flags => if b = 0x0F#8 then (.collect, 1#5) else (.awaitStop, 24#5)
      | .awaitStop => (.idle, 0#5)

/-- R112, an inference of the spec, and R6: on a beat only the class writes core registers (an idle edge writes none);
only the CHAN classes write ch_raw, only FLGS_DECODE writes flags_byte; no edge of any kind changes MODE or TSW (R7), and each
uses up exactly one edge's inputs (R235). -/
def Obligations.OnlyTheNamedClassesWrite : Prop :=
  (∀ (i : Instr) (s t : State), exec i s = .next t → t.tsw = s.tsw) ∧
  (∀ s t : State, step s = .next t → t.tsw = s.tsw) ∧
  ∀ (w : Nat) (s t : Block w), step ⟨w, s⟩ = .next ⟨w, t⟩ →
    (t.mode = s.mode ∧ t.inputs = s.inputs.tail) ∧ (s.ports.rst = false →
    (s.ports.inValid = true → exec (decodeDw s.decodeWord) ⟨w, s⟩ = .next ⟨w, t⟩) ∧
    (s.ports.inValid = false → t.st = s.st ∧ t.idx = s.idx ∧ t.fs = s.fs ∧ t.buf = s.buf) ∧
    (t.chRaw ≠ s.chRaw → s.ports.inValid = true ∧
      ((∃ b, decodeDw s.decodeWord = .collChanSplit b) ∨ ∃ b, decodeDw s.decodeWord = .collChanUnified b)) ∧
    (t.flagsByte ≠ s.flagsByte → s.ports.inValid = true ∧ ∃ b, decodeDw s.decodeWord = .flgsDecode b))

/-- R61: the three storing classes write exactly the entry idx - 1, below CAP, with the beat's byte; every other beat and
every idle edge either leaves each entry alone (IDLE_SKIP, FLGS_DECODE, the idle edge) or clears the frame; reset and
ClearFrame write 0 to every entry; so split mode's entry 22 stays 0. -/
def Obligations.BufferWritesGoToTheExpectedEntry : Prop :=
  (∀ (w : Nat) (s t : Block w) (b : Byte) (i : Instr), Memory.wf s.buf →
    i = .collAccum b ∨ i = .collChanSplit b ∨ i = .collChanUnified b → exec i ⟨w, s⟩ = .next ⟨w, t⟩ →
    s.idx.toNat - 1 ≤ cap s.mode - 1 ∧ s.idx.toNat - 1 < bufEntries ∧
    (∀ k, k < bufEntries → bufRead t.buf k = if k = s.idx.toNat - 1 then some b else bufRead s.buf k) ∧
    (s.mode = .split → bufRead t.buf 22 = bufRead s.buf 22)) ∧
  (∀ (w : Nat) (s t : Block w) (b : Byte) (i : Instr), i = .idleSkip b ∨ i = .flgsDecode b ∨ i = .idleEdge →
    exec i ⟨w, s⟩ = .next ⟨w, t⟩ → ∀ k, bufRead t.buf k = bufRead s.buf k) ∧
  ∀ (w : Nat) (s : Block w) (m : Mode) (k : Nat), k < bufEntries →
    bufRead (clearFrame s).buf k = some 0#8 ∧ bufRead (Block.reset m w).buf k = some 0#8

/-- R70: every entry is 0 after a reset edge, a start-sync beat that opens a frame, and both ends of a frame. -/
def Obligations.BufferClearedAtFrameBoundaries : Prop :=
  ∀ (w : Nat) (s t : Block w) (i : Instr),
    (∃ v, i = .reset v) ∨ i = .idleStart ∨ i = .collRestart ∨ i = .flgsRestart ∨ i = .awstStop ∨
      (∃ b, i = .awstDesync b) →
    exec i ⟨w, s⟩ = .next ⟨w, t⟩ → ∀ k, k < bufEntries → bufRead t.buf k = some 0#8

/-- R62: entry 22 is never read: two states that differ at most there take the same steps to states that differ at most
there, with the same values on every output port. -/
def Obligations.EntryTwentyTwoIsNeverRead : Prop :=
  ∀ (w : Nat) (s s' t : Block w), SameButEntry22 s s' → step ⟨w, s⟩ = .next ⟨w, t⟩ →
    ∃ t', step ⟨w, s'⟩ = .next ⟨w, t'⟩ ∧ SameButEntry22 t t' ∧ t'.outputPorts = t.outputPorts

/-- The buffer's canonical form is kept by every write to an entry that exists, and there the read after the write gives the
written byte and every other entry its old one. -/
def Obligations.BufferReadAfterWrite : Prop :=
  ∀ (m m' : Memory) (k : Nat) (v : Byte), Memory.wf m → bufWrite m k v = some m' →
    Memory.wf m' ∧ bufRead m' k = some v ∧ ∀ j, j ≠ k → bufRead m' j = bufRead m j

/-- R32: how a record reaches the output registers, and that the core is not touched. -/
def Obligations.RecordReachesTheOutputs : Prop :=
  ∀ (w : Nat) (e : Event w) (s : Block w),
    ((updateOutputs e s).evValid = true ↔ e.body.kind ≠ .none) ∧ (updateOutputs e s).evKind = e.body.kind ∧
    (updateOutputs e s).evErr = e.err ∧ (updateOutputs e s).evTsStart = e.tsStart ∧
    (updateOutputs e s).evTsEnd = e.tsEnd ∧
    (∀ r, e.body = .chan r → (updateOutputs e s).chRaw = r) ∧
    ((∀ r, e.body ≠ .chan r) → (updateOutputs e s).chRaw = s.chRaw) ∧
    (∀ f, e.body = .flag f → (updateOutputs e s).flagsByte = f) ∧
    ((∀ f, e.body ≠ .flag f) → (updateOutputs e s).flagsByte = s.flagsByte) ∧
    (updateOutputs e s).mode = s.mode ∧ (updateOutputs e s).st = s.st ∧ (updateOutputs e s).idx = s.idx ∧
    (updateOutputs e s).buf = s.buf ∧ (updateOutputs e s).fs = s.fs ∧ (updateOutputs e s).inputs = s.inputs

/-- R35 and R231, inferences of the spec, and R236: the combinational outputs and what they show right after reset; and
there is no combinational path from an input port to an output port: whatever is presented at this edge and later, the
outputs of this cycle are the same. -/
def Obligations.CombinationalOutputs : Prop :=
  (∀ (w : Nat) (s : Block w),
    (∀ i (h : i < 16), s.outputPorts.chScaled[i] = scale s.chRaw[i]) ∧
    s.outputPorts.flagCh17 = s.flagsByte.getLsbD 0 ∧ s.outputPorts.flagCh18 = s.flagsByte.getLsbD 1 ∧
    s.outputPorts.flagFrameLost = s.flagsByte.getLsbD 2 ∧ s.outputPorts.flagFailsafe = s.flagsByte.getLsbD 3 ∧
    s.outputPorts.stO = s.st.code ∧ s.outputPorts.idxO = s.idx) ∧
  (∀ (w : Nat) (s : Block w) (ps : List (Ports w)), ({ s with inputs := ps } : Block w).outputPorts = s.outputPorts ∧
    ({ s with inputs := ps } : Block w).sampled = s.sampled) ∧
  ∀ (w : Nat) (m : Mode),
    (∀ i (h : i < 16), (Block.reset m w).outputPorts.chScaled[i] = 881#12) ∧
    (Block.reset m w).outputPorts.flagCh17 = false ∧ (Block.reset m w).outputPorts.flagCh18 = false ∧
    (Block.reset m w).outputPorts.flagFrameLost = false ∧ (Block.reset m w).outputPorts.flagFailsafe = false

/-- R25, R84, R85, R89: the codes the output ports show, and that the reserved ones are never driven. -/
def Obligations.OutputCodes : Prop :=
  (∀ (w : Nat) (s : Block w), s.outputPorts.evKind ≠ 6#3 ∧ s.outputPorts.evKind ≠ 7#3 ∧ s.outputPorts.evErr ≠ 3#2) ∧
  [EvKind.none, .start, .chan, .flag, .stop, .desync].map EvKind.code = [0#3, 1#3, 2#3, 3#3, 4#3, 5#3] ∧
  [EvErr.none, .prematureStart, .badTerminator].map EvErr.code = [0#2, 1#2, 2#2] ∧
  [St.idle, .collect, .flags, .awaitStop].map St.code = [0#2, 1#2, 2#2, 3#2]

/-- R115, an inference of the spec: a beat makes exactly one record: none is sampled after the two classes whose kind is
NONE, exactly one after every other, and a premature start is that one START record with its error code. -/
def Obligations.OneRecordPerBeat : Prop :=
  ∀ (w : Nat) (s t : Block w) (b : Byte), BeatOf s b → step ⟨w, s⟩ = .next ⟨w, t⟩ →
    (decodeDw s.decodeWord = .idleSkip b ∨ decodeDw s.decodeWord = .collAccum b → t.sampled = []) ∧
    (decodeDw s.decodeWord ≠ .idleSkip b → decodeDw s.decodeWord ≠ .collAccum b →
      t.sampled = [⟨t.eventBody, t.evErr, t.evTsStart, t.evTsEnd⟩] ∧ t.evKind ≠ .none) ∧
    (t.evErr = .prematureStart →
      t.sampled = [⟨.start, .prematureStart, s.ports.inTsStart, s.ports.inTsEnd⟩])

/-- R116: a record's span ends with the triggering byte and starts with it, but for CHAN, which starts at fs; and fs is the
start timestamp of the byte taken at frame position 1, kept until the frame's CHAN. A NONE record leaves ev_valid 0. -/
def Obligations.EventTimestampsAreTheSpan : Prop :=
  ∀ (w : Nat) (s t : Block w) (b : Byte), BeatOf s b → step ⟨w, s⟩ = .next ⟨w, t⟩ →
    t.evTsEnd = s.ports.inTsEnd ∧
    (t.evKind = .chan → t.evTsStart = s.fs) ∧ (t.evKind ≠ .chan → t.evTsStart = s.ports.inTsStart) ∧
    (t.evKind = .none → t.evValid = false) ∧
    (s.st = .collect → b ≠ 0x0F#8 → s.idx = 1#5 → t.fs = s.ports.inTsStart) ∧
    (s.st = .collect → b ≠ 0x0F#8 → s.idx ≠ 1#5 → t.fs = s.fs)

/-- R201, R202, R203: which bytes are errors, their classes and codes, what each reports, and how the block recovers in the
same edge (R206). -/
def Obligations.ErrorsReportAndRecover : Prop :=
  ∀ (w : Nat) (s t : Block w) (b : Byte), BeatOf s b → step ⟨w, s⟩ = .next ⟨w, t⟩ →
    (t.evErr = .prematureStart ↔ b = 0x0F#8 ∧ (s.st = .collect ∨ s.st = .flags)) ∧
    (t.evErr = .badTerminator ↔ b ≠ 0x00#8 ∧ s.st = .awaitStop) ∧
    (b ≠ 0x0F#8 → s.st = .idle → decodeDw s.decodeWord = .idleSkip b ∧ t.evKind = .none ∧ t.evErr = .none) ∧
    (t.evErr = .prematureStart →
      (decodeDw s.decodeWord = .collRestart ∨ decodeDw s.decodeWord = .flgsRestart) ∧ t.evErr.code = 1#2 ∧
      t.evKind = .start ∧ t.st = .collect ∧ t.idx = 1#5) ∧
    (t.evErr = .badTerminator →
      decodeDw s.decodeWord = .awstDesync b ∧ t.evErr.code = 2#2 ∧ t.evKind = .desync ∧ t.st = .idle ∧ t.idx = 0#5) ∧
    (t.evErr ≠ .none → t.evTsStart = s.ports.inTsStart ∧ t.evTsEnd = s.ports.inTsEnd ∧ t.fs = 0 ∧
      (∀ k, k < bufEntries → bufRead t.buf k = some 0#8) ∧ t.chRaw = s.chRaw ∧ t.flagsByte = s.flagsByte)

/-- R241, an inference of the spec: a 0x0F at frame positions 1 to 23, in either mode, aborts the frame; and channel
values can make such a byte. -/
def Obligations.StartSyncInsideAFrameAbortsIt : Prop :=
  (∀ (w : Nat) (s t : Block w), BeatOf s 0x0F#8 → 1 ≤ s.idx.toNat → s.idx.toNat ≤ 23 →
    step ⟨w, s⟩ = .next ⟨w, t⟩ → t.st = .collect ∧ t.idx = 1#5 ∧ t.evKind = .start ∧ t.evErr = .prematureStart ∧ t.chRaw = s.chRaw ∧
    t.flagsByte = s.flagsByte) ∧
  ∀ r : Channels, r[0] = 0x70F#11 → (pack r)[0] = 0x0F#8

/-- R182: the flag wires show the last decoded flags byte, and change only at a FLGS_DECODE beat or a reset edge. -/
def Obligations.FlagWiresHoldBetweenDecodes : Prop :=
  (∀ (w : Nat) (s t : Block w) (b : Byte), exec (.flgsDecode b) ⟨w, s⟩ = .next ⟨w, t⟩ →
    t.flagsByte = b ∧ t.outputPorts.flagCh17 = b.getLsbD 0 ∧ t.outputPorts.flagCh18 = b.getLsbD 1 ∧
    t.outputPorts.flagFrameLost = b.getLsbD 2 ∧ t.outputPorts.flagFailsafe = b.getLsbD 3) ∧
  (∀ (w : Nat) (s t : Block w) (i : Instr), (∀ b, i ≠ .flgsDecode b) → i ≠ .beat → (∀ v, i ≠ .reset v) →
    exec i ⟨w, s⟩ = .next ⟨w, t⟩ →
    t.outputPorts.flagCh17 = s.outputPorts.flagCh17 ∧ t.outputPorts.flagCh18 = s.outputPorts.flagCh18 ∧
    t.outputPorts.flagFrameLost = s.outputPorts.flagFrameLost ∧
    t.outputPorts.flagFailsafe = s.outputPorts.flagFailsafe) ∧
  ∀ (w : Nat) (m : Mode), (Block.reset m w).flagsByte = 0#8

/-- R183: the ordered labels, a function of the four wires alone; with the lists R184, R185, R187 and R188 name: zero flags,
bits without meaning, all four flags, and the source's vector. -/
def Obligations.FlagLabelsHighestBitFirst : Prop :=
  (∀ f : Byte, labels f =
    ([(3, .failsafeActive), (2, .frameLost), (1, .channel18Active), (0, .channel17Active)] :
      List (Nat × FlagLabel)).filterMap fun p => if f.getLsbD p.1 then some p.2 else none) ∧
  (∀ f g : Byte, flagCh17 f = flagCh17 g → flagCh18 f = flagCh18 g → flagFrameLost f = flagFrameLost g →
    flagFailsafe f = flagFailsafe g → labels f = labels g) ∧
  labels 0x00#8 = [] ∧ labels 0xF0#8 = [] ∧ labels 0x10#8 = [] ∧
  (labels 0x0B#8).map FlagLabel.text = ["Failsafe active", "Channel 18 active", "Channel 17 active"] ∧
  (labels 0x0F#8).map FlagLabel.text = ["Failsafe active", "Frame lost", "Channel 18 active", "Channel 17 active"]

/-- R186: in unified mode no FLAG event is emitted and flags_byte and its four wires stay 0. -/
def Obligations.UnifiedModeNeverFlags : Prop :=
  ∀ (n w : Nat) (s t : Block w) (evs : List Sample), s.mode = .unified → s.flagsByte = 0#8 →
    runEvents n ⟨w, s⟩ = some (evs, ⟨w, t⟩) →
    t.flagsByte = 0#8 ∧ t.outputPorts.flagCh17 = false ∧ t.outputPorts.flagCh18 = false ∧
    t.outputPorts.flagFrameLost = false ∧ t.outputPorts.flagFailsafe = false ∧ ∀ e ∈ evs, e.event.body.kind ≠ .flag

/-! ## The bit-slicer -/

/-- R23, an inference of the spec: the flat channel bus and the 16 channels are the same bits. -/
def Obligations.ChannelBusIsTheChannels : Prop :=
  ∀ (r : Channels) (i : Nat) (h : i < 16), (channelBus r).extractLsb' (11 * i) 11 = r[i]

/-- R151, R152: the bit stream, every bit of every unpacked channel, and its value by the two formulas of the spec; every
raw value occurs on every channel. -/
def Obligations.UnpackTakesElevenBitsEach : Prop :=
  (∀ (p : AnalogBytes) (k : Nat) (h : k < 176), (payloadStream p).getLsbD k = (p[k / 8]'(by omega)).getLsbD (k % 8)) ∧
  (∀ (i : Nat) (h : i < 16) (r : RawChannel), ∃ p : AnalogBytes, (unpack p)[i] = r) ∧
  ∀ (p : AnalogBytes) (i : Nat) (hi : i < 16),
    (∀ j (hj : j < 11), (unpack p)[i].getLsbD j = (p[(11 * i + j) / 8]'(by omega)).getLsbD ((11 * i + j) % 8)) ∧
    (unpack p)[i].toNat = (∑ k : Fin 22, p[k].toNat * 2 ^ (8 * k.val)) / 2 ^ (11 * i) % 2 ^ 11 ∧
    (unpack p)[i].toNat =
      ∑ j : Fin 11, ((p[(11 * i + j.val) / 8]'(by omega)).getLsbD ((11 * i + j.val) % 8)).toNat * 2 ^ j.val

/-- R153, an inference of the spec: the slice table, row by row. -/
def Obligations.SliceTable : Prop :=
  ∀ p : AnalogBytes,
    (unpack p)[0] = p[1].extractLsb 2 0 ++ p[0].extractLsb 7 0 ∧
    (unpack p)[1] = p[2].extractLsb 5 0 ++ p[1].extractLsb 7 3 ∧
    (unpack p)[2] = p[4].extractLsb 0 0 ++ p[3].extractLsb 7 0 ++ p[2].extractLsb 7 6 ∧
    (unpack p)[3] = p[5].extractLsb 3 0 ++ p[4].extractLsb 7 1 ∧
    (unpack p)[4] = p[6].extractLsb 6 0 ++ p[5].extractLsb 7 4 ∧
    (unpack p)[5] = p[8].extractLsb 1 0 ++ p[7].extractLsb 7 0 ++ p[6].extractLsb 7 7 ∧
    (unpack p)[6] = p[9].extractLsb 4 0 ++ p[8].extractLsb 7 2 ∧
    (unpack p)[7] = p[10].extractLsb 7 0 ++ p[9].extractLsb 7 5 ∧
    (unpack p)[8] = p[12].extractLsb 2 0 ++ p[11].extractLsb 7 0 ∧
    (unpack p)[9] = p[13].extractLsb 5 0 ++ p[12].extractLsb 7 3 ∧
    (unpack p)[10] = p[15].extractLsb 0 0 ++ p[14].extractLsb 7 0 ++ p[13].extractLsb 7 6 ∧
    (unpack p)[11] = p[16].extractLsb 3 0 ++ p[15].extractLsb 7 1 ∧
    (unpack p)[12] = p[17].extractLsb 6 0 ++ p[16].extractLsb 7 4 ∧
    (unpack p)[13] = p[19].extractLsb 1 0 ++ p[18].extractLsb 7 0 ++ p[17].extractLsb 7 7 ∧
    (unpack p)[14] = p[20].extractLsb 4 0 ++ p[19].extractLsb 7 2 ∧
    (unpack p)[15] = p[21].extractLsb 7 0 ++ p[20].extractLsb 7 5

/-- R154, an inference of the spec: just after a CHAN event the flat channel bus is the payload stream, bit for bit and as
a number. -/
def Obligations.BusAfterUnpackIsThePayload : Prop :=
  ∀ p : AnalogBytes,
    (∀ k (h : k < 176), (channelBus (unpack p)).getLsbD k = (p[k / 8]'(by omega)).getLsbD (k % 8)) ∧
    ∑ i : Fin 16, (unpack p)[i].toNat * 2 ^ (11 * i.val) = ∑ k : Fin 22, p[k].toNat * 2 ^ (8 * k.val)

/-- R155: Scale by its formula; its result fits 12 bits and lies between 881 and 2159, and nothing overflows. -/
def Obligations.ScaleFormula : Prop :=
  ∀ r : RawChannel,
    (scale r).toNat = r.toNat * 1024 / 1639 + 881 ∧ r.toNat * 1024 ≤ 2096128 ∧ r.toNat * 1024 / 1639 ≤ 1278 ∧
    881 ≤ (scale r).toNat ∧ (scale r).toNat ≤ 2159 ∧ scale 2047#11 = 2159#12

/-- R156, an inference of the spec: Unpack is a bijection between 22-byte vectors and 16-tuples of 11-bit values, with
pack, by its own formula, its inverse. -/
def Obligations.PackAndUnpackAreInverse : Prop :=
  (∀ (r : Channels) (k : Nat) (h : k < 22),
    (pack r)[k].toNat = (∑ i : Fin 16, r[i].toNat * 2 ^ (11 * i.val)) / 2 ^ (8 * k) % 256) ∧
  (∀ r : Channels, unpack (pack r) = r) ∧ (∀ p : AnalogBytes, pack (unpack p) = p) ∧ Function.Bijective unpack

/-- R158, an inference of the spec: Scale is non-decreasing, two consecutive raw values differ by 0 or 1 in Scale, and
every value from 881 to 2159 is taken. -/
def Obligations.ScaleIsNonDecreasingAndOnto : Prop :=
  (∀ r₁ r₂ : RawChannel, r₁.toNat ≤ r₂.toNat → (scale r₁).toNat ≤ (scale r₂).toNat) ∧
  (∀ r₁ r₂ : RawChannel, r₂.toNat = r₁.toNat + 1 → (scale r₂).toNat - (scale r₁).toNat ≤ 1) ∧
  ∀ v : Nat, 881 ≤ v → v ≤ 2159 → ∃ r : RawChannel, (scale r).toNat = v

/-! ## Invariants and whole runs -/

/-- R37 to R41, inferences of the spec: every step keeps the invariants of reachable states. -/
def Obligations.StepKeepsInvariant : Prop :=
  ∀ (w : Nat) (s t : Block w), Inv s → step ⟨w, s⟩ = .next ⟨w, t⟩ → Inv t

/-- R37 to R41, inferences of the spec, hold right after reset, in both modes, for every width, whatever will be
presented, and in `State.reset`. -/
def Obligations.ResetMeetsInvariant : Prop :=
  Inv State.reset.block ∧ ∀ (w : Nat) (m : Mode) (ps : List (Ports w)), Inv { Block.reset m w with inputs := ps }

/-- R7: no rule depends on TSW's value, and the block never computes on, compares or orders a timestamp: carried from a
block of any width to one of any other by any map that keeps the reset value 0, every step is the same step, and a refused
one is refused by the same name. -/
def Obligations.TimestampsAreOpaque : Prop :=
  ∀ (w v : Nat) (f : Timestamp w → Timestamp v) (s : Block w), f 0#w = 0#v →
    (∀ t : Block w, step ⟨w, s⟩ = .next ⟨w, t⟩ → step ⟨v, s.mapTs f⟩ = .next ⟨v, t.mapTs f⟩) ∧
    ∀ r, step ⟨w, s⟩ = .refused r → step ⟨v, s.mapTs f⟩ = .refused r

/-- R242: if the stream stops, the block stays in its state for ever: over any number of idle edges no event is sampled and
neither the core state nor ch_raw nor flags_byte changes. -/
def Obligations.NoTimeout : Prop :=
  ∀ (n w : Nat) (s : Block w), s.reachable = true → (∀ p ∈ s.inputs.take n, p.rst = false ∧ p.inValid = false) →
    ∃ t : Block w, runEvents n ⟨w, s⟩ = some ([], ⟨w, t⟩) ∧ t.st = s.st ∧ t.idx = s.idx ∧ t.buf = s.buf ∧
      t.fs = s.fs ∧ t.chRaw = s.chRaw ∧ t.flagsByte = s.flagsByte

/-- R207, an inference of the spec: errors do not nest: any number of start-sync bytes in a row, from IDLE, gives a START
and then a START with the error code for each further one. -/
def Obligations.RepeatedStartSyncs : Prop :=
  ∀ (n w : Nat) (s : Block w) (ts : Nat → Timestamp w × Timestamp w), s.reachable = true → s.st = .idle →
    s.inputs = Script.beatsWith ts (List.replicate (n + 1) 0x0F#8) →
    ∃ t : Block w, runEvents (n + 1) ⟨w, s⟩ =
        some (⟨w, .start, .none, (ts 0).1, (ts 0).2⟩ ::
          (List.range n).map fun k => ⟨w, .start, .prematureStart, (ts (k + 1)).1, (ts (k + 1)).2⟩, ⟨w, t⟩) ∧
      t.st = .collect ∧ t.idx = 1#5

/-- R114, an inference of the spec, split mode: a 25-byte frame whose bytes 1 to 23 are not 0x0F, fed with any timestamps
from IDLE, COLLECT or FLAGS, gives exactly START, CHAN, FLAG and STOP, with the unpacked channels, the flags byte and the
spans of R116, and ends in (IDLE, 0). -/
def Obligations.ValidFrameInSplitMode : Prop :=
  ∀ (w : Nat) (s : Block w) (p : AnalogBytes) (f : Byte) (ts : Nat → Timestamp w × Timestamp w) (rest : List (Ports w)),
    s.mode = .split → s.reachable = true → s.st ≠ .awaitStop → (∀ k (h : k < 22), p[k] ≠ 0x0F#8) → f ≠ 0x0F#8 →
    s.inputs = Script.beatsWith ts (Script.frameBytes p f) ++ rest →
    ∃ t : Block w, runEvents 25 ⟨w, s⟩ =
        some ([⟨w, .start, if s.st = .idle then .none else .prematureStart, (ts 0).1, (ts 0).2⟩,
          ⟨w, .chan (unpack p), .none, (ts 1).1, (ts 22).2⟩, ⟨w, .flag f, .none, (ts 23).1, (ts 23).2⟩,
          ⟨w, .stop, .none, (ts 24).1, (ts 24).2⟩], ⟨w, t⟩) ∧
      t.st = .idle ∧ t.idx = 0#5 ∧ t.chRaw = unpack p ∧ t.flagsByte = f ∧ t.inputs = rest

/-- R114, an inference of the spec, unified mode: the same frame gives exactly START, CHAN and STOP; the folded flags byte
changes no event and flags_byte keeps its value (R107). -/
def Obligations.ValidFrameInUnifiedMode : Prop :=
  ∀ (w : Nat) (s : Block w) (p : AnalogBytes) (f : Byte) (ts : Nat → Timestamp w × Timestamp w) (rest : List (Ports w)),
    s.mode = .unified → s.reachable = true → s.st ≠ .awaitStop → (∀ k (h : k < 22), p[k] ≠ 0x0F#8) → f ≠ 0x0F#8 →
    s.inputs = Script.beatsWith ts (Script.frameBytes p f) ++ rest →
    ∃ t : Block w, runEvents 25 ⟨w, s⟩ =
        some ([⟨w, .start, if s.st = .idle then .none else .prematureStart, (ts 0).1, (ts 0).2⟩,
          ⟨w, .chan (unpack p), .none, (ts 1).1, (ts 23).2⟩, ⟨w, .stop, .none, (ts 24).1, (ts 24).2⟩], ⟨w, t⟩) ∧
      t.st = .idle ∧ t.idx = 0#5 ∧ t.chRaw = unpack p ∧ t.flagsByte = s.flagsByte ∧ t.inputs = rest

/-- R114, an inference of the spec, the last case: fed from AWAIT_STOP, the frame's start byte is consumed as a bad
terminator and the rest is hunted through in IDLE. -/
def Obligations.FrameAfterAMissingStopIsLost : Prop :=
  ∀ (w : Nat) (s : Block w) (p : AnalogBytes) (f : Byte) (ts : Nat → Timestamp w × Timestamp w) (rest : List (Ports w)),
    s.reachable = true → s.st = .awaitStop → (∀ k (h : k < 22), p[k] ≠ 0x0F#8) → f ≠ 0x0F#8 →
    s.inputs = Script.beatsWith ts (Script.frameBytes p f) ++ rest →
    ∃ t : Block w, runEvents 25 ⟨w, s⟩ = some ([⟨w, .desync, .badTerminator, (ts 0).1, (ts 0).2⟩], ⟨w, t⟩) ∧
      t.st = .idle ∧ t.idx = 0#5 ∧ t.chRaw = s.chRaw ∧ t.flagsByte = s.flagsByte ∧ t.inputs = rest

/-- R243, an inference of the spec: the sequence of event records, with their timestamps and payloads, depends only on the
sequence of beats, not on how many idle edges come between them. -/
def Obligations.IdleEdgesDoNotChangeTheEvents : Prop :=
  ∀ (w : Nat) (s : Block w) (ps : List (Ports w)), s.reachable = true → (∀ p ∈ ps, p.rst = false) →
    (eventsOf ps s).isSome = true ∧ eventsOf ps s = eventsOf (ps.filter (·.inValid)) s

/-- R239, an inference of the spec: without a reset between them, two CHAN events are at least 23 beats apart in split
mode and 25 in unified mode, and two FLAG events at least 25. -/
def Obligations.EventsAreSpacedApart : Prop :=
  ∀ (w : Nat) (s t u : Block w) (n : Nat) (evs : List Sample), step ⟨w, s⟩ = .next ⟨w, t⟩ →
    runEvents n ⟨w, t⟩ = some (evs, ⟨w, u⟩) → NoReset n t →
    (t.evKind = .chan → (∃ e ∈ evs, e.event.body.kind = .chan) → (if t.mode = .split then 23 else 25) ≤ beatsIn n t) ∧
    (t.evKind = .flag → (∃ e ∈ evs, e.event.body.kind = .flag) → 25 ≤ beatsIn n t)
end

