-- ==== Sys2Proof/Laws/Decode.lean ====
section
/-! SUPPORT. The small lemmas of the decoder: a packed decode word gives its fields back, every word is the packing of its
fields, and each row of R81 fits a packed word exactly under a condition on the fields. -/

namespace Sys2Proof

theorem append_eq_append_iff {v w : Nat} {a c : BitVec v} {b d : BitVec w} : a ++ b = c ++ d ↔ a = c ∧ b = d := by
  constructor
  · intro h
    have h1 := congrArg (BitVec.extractLsb' w v) h
    have h2 := congrArg (BitVec.extractLsb' 0 w) h
    simpa [BitVec.extractLsb'_append_eq_left, BitVec.extractLsb'_append_eq_right] using And.intro h1 h2
  · rintro ⟨rfl, rfl⟩
    rfl

@[simp] theorem Mode.ofCode_code (m : Mode) : Mode.ofCode m.code = m := by cases m <;> rfl

@[simp] theorem St.ofCode_code (st : St) : St.ofCode st.code = st := by cases st <;> rfl

@[simp] theorem Mode.code_ofCode (c : BitVec 1) : (Mode.ofCode c).code = c := by revert c; decide

@[simp] theorem St.code_ofCode (c : BitVec 2) : (St.ofCode c).code = c := by revert c; decide

@[simp] theorem dwByte_packDw (m : Mode) (st : St) (idx : BitVec 5) (b : Byte) : dwByte (packDw m st idx b) = b :=
  BitVec.extractLsb'_append_eq_right

@[simp] theorem dwIdx_packDw (m : Mode) (st : St) (idx : BitVec 5) (b : Byte) : dwIdx (packDw m st idx b) = idx := by
  show BitVec.extractLsb' 8 5 ((m.code ++ st.code ++ idx : BitVec 8) ++ b) = idx
  rw [BitVec.extractLsb'_append_eq_of_le (by decide)]
  exact BitVec.extractLsb'_append_eq_right

@[simp] theorem dwSt_packDw (m : Mode) (st : St) (idx : BitVec 5) (b : Byte) : dwSt (packDw m st idx b) = st := by
  show St.ofCode (BitVec.extractLsb' 13 2 ((m.code ++ st.code ++ idx : BitVec 8) ++ b)) = st
  rw [BitVec.extractLsb'_append_eq_of_le (by decide)]
  show St.ofCode (BitVec.extractLsb' 5 2 ((m.code ++ st.code : BitVec 3) ++ idx)) = st
  rw [BitVec.extractLsb'_append_eq_of_le (by decide)]
  have h : BitVec.extractLsb' (5 - 5) 2 (m.code ++ st.code) = st.code := BitVec.extractLsb'_append_eq_right
  rw [h, St.ofCode_code]

@[simp] theorem dwMode_packDw (m : Mode) (st : St) (idx : BitVec 5) (b : Byte) : dwMode (packDw m st idx b) = m := by
  show Mode.ofCode (BitVec.extractLsb' 15 1 ((m.code ++ st.code ++ idx : BitVec 8) ++ b)) = m
  rw [BitVec.extractLsb'_append_eq_of_le (by decide)]
  show Mode.ofCode (BitVec.extractLsb' 7 1 ((m.code ++ st.code : BitVec 3) ++ idx)) = m
  rw [BitVec.extractLsb'_append_eq_of_le (by decide)]
  have h : BitVec.extractLsb' (7 - 5) 1 (m.code ++ st.code) = m.code := BitVec.extractLsb'_append_eq_left
  rw [h, Mode.ofCode_code]

/-- Every 16-bit word is a decode word: the packing of its own fields (R80). -/
theorem packDw_fields (w : BitVec 16) : packDw (dwMode w) (dwSt w) (dwIdx w) (dwByte w) = w := by
  unfold packDw dwMode dwSt dwIdx dwByte
  rw [Mode.code_ofCode, St.code_ofCode]
  apply BitVec.eq_of_getLsbD_eq
  intro i hi
  simp only [BitVec.getLsbD_append, BitVec.getLsbD_extractLsb']
  by_cases h8 : i < 8
  · simp [h8]
  · by_cases h13 : i < 13
    · have : i - 8 < 5 := by omega
      have e : 8 + (i - 8) = i := by omega
      simp [h8, this, e]
    · by_cases h15 : i < 15
      · have h1 : ¬ i - 8 < 5 := by omega
        have h2 : i - 8 - 5 < 2 := by omega
        have e : 13 + (i - 8 - 5) = i := by omega
        simp [h8, h1, h2, e]
      · have e : i = 15 := by omega
        subst e
        simp

/-- Two packed words are equal exactly when their fields are. -/
theorem packDw_inj {m m' : Mode} {st st' : St} {idx idx' : BitVec 5} {b b' : Byte} :
    packDw m st idx b = packDw m' st' idx' b' ↔ m = m' ∧ st = st' ∧ idx = idx' ∧ b = b' := by
  constructor
  · intro h
    exact ⟨by simpa using congrArg dwMode h, by simpa using congrArg dwSt h, by simpa using congrArg dwIdx h,
      by simpa using congrArg dwByte h⟩
  · rintro ⟨rfl, rfl, rfl, rfl⟩
    rfl

/-- A mask and a pattern written as fields fit a packed word field by field. -/
theorem fits_packDw (m : Mode) (st : St) (idx : BitVec 5) (b : Byte) (km pm : BitVec 1) (ks ps : BitVec 2)
    (ki pi : BitVec 5) (kb pb : BitVec 8) :
    (DwRow.mk (km ++ ks ++ ki ++ kb) (pm ++ ps ++ pi ++ pb)).fits (packDw m st idx b) = true ↔
      m.code &&& km = pm ∧ st.code &&& ks = ps ∧ idx &&& ki = pi ∧ b &&& kb = pb := by
  simp only [DwRow.fits, packDw, beq_iff_eq]
  rw [show (m.code ++ st.code ++ idx ++ b : BitVec 16) &&& (km ++ ks ++ ki ++ kb : BitVec 16) =
    (((m.code &&& km) ++ (st.code &&& ks) ++ (idx &&& ki)) ++ (b &&& kb) : BitVec 16) by
      simp only [BitVec.and_append]]
  rw [append_eq_append_iff, append_eq_append_iff, append_eq_append_iff]
  exact ⟨fun ⟨⟨⟨h1, h2⟩, h3⟩, h4⟩ => ⟨h1, h2, h3, h4⟩, fun ⟨h1, h2, h3, h4⟩ => ⟨⟨⟨h1, h2⟩, h3⟩, h4⟩⟩

section Rows

variable (m : Mode) (st : St) (idx : BitVec 5) (b : Byte)

/-- A row that tests s and the whole byte (priorities 1, 3, 7, 9). -/
theorem fits_state_byte (c : St) (v : Byte) :
    (DwRow.mk (0#1 ++ 3#2 ++ 0#5 ++ 0xFF#8) (0#1 ++ c.code ++ 0#5 ++ v)).fits (packDw m st idx b) = true ↔
      st = c ∧ b = v := by
  rw [fits_packDw]
  have hs : st.code &&& 3#2 = c.code ↔ st = c := by cases st <;> cases c <;> decide
  have hb : b &&& 0xFF#8 = b := by
    rw [show (0xFF#8 : BitVec 8) = BitVec.allOnes 8 from rfl, BitVec.and_allOnes]
  simp [hs, hb]

/-- A row that tests s alone (priorities 2, 6, 8, 10). -/
theorem fits_state (c : St) :
    (DwRow.mk (0#1 ++ 3#2 ++ 0#5 ++ 0#8) (0#1 ++ c.code ++ 0#5 ++ 0#8)).fits (packDw m st idx b) = true ↔ st = c := by
  rw [fits_packDw]
  have hs : st.code &&& 3#2 = c.code ↔ st = c := by cases st <;> cases c <;> decide
  simp [hs]

/-- A row that tests m, s and i (priorities 4 and 5). -/
theorem fits_position (cm : Mode) (c : St) (n : BitVec 5) :
    (DwRow.mk (1#1 ++ 3#2 ++ 31#5 ++ 0#8) (cm.code ++ c.code ++ n ++ 0#8)).fits (packDw m st idx b) = true ↔
      m = cm ∧ st = c ∧ idx = n := by
  rw [fits_packDw]
  have hm : m.code &&& 1#1 = cm.code ↔ m = cm := by cases m <;> cases cm <;> decide
  have hs : st.code &&& 3#2 = c.code ↔ st = c := by cases st <;> cases c <;> decide
  have hi : idx &&& 31#5 = idx := by rw [show (31#5 : BitVec 5) = BitVec.allOnes 5 from rfl, BitVec.and_allOnes]
  simp [hm, hs, hi]

@[simp] theorem rowIdleStart_fits : rowIdleStart.fits (packDw m st idx b) = true ↔ st = .idle ∧ b = syncStart :=
  fits_state_byte m st idx b .idle 0x0F#8

@[simp] theorem rowIdleSkip_fits : rowIdleSkip.fits (packDw m st idx b) = true ↔ st = .idle :=
  fits_state m st idx b .idle

@[simp] theorem rowCollRestart_fits : rowCollRestart.fits (packDw m st idx b) = true ↔ st = .collect ∧ b = syncStart :=
  fits_state_byte m st idx b .collect 0x0F#8

@[simp] theorem rowCollChanSplit_fits :
    rowCollChanSplit.fits (packDw m st idx b) = true ↔ m = .split ∧ st = .collect ∧ idx = 22#5 :=
  fits_position m st idx b .split .collect 22#5

@[simp] theorem rowCollChanUnified_fits :
    rowCollChanUnified.fits (packDw m st idx b) = true ↔ m = .unified ∧ st = .collect ∧ idx = 23#5 :=
  fits_position m st idx b .unified .collect 23#5

@[simp] theorem rowCollAccum_fits : rowCollAccum.fits (packDw m st idx b) = true ↔ st = .collect :=
  fits_state m st idx b .collect

@[simp] theorem rowFlgsRestart_fits : rowFlgsRestart.fits (packDw m st idx b) = true ↔ st = .flags ∧ b = syncStart :=
  fits_state_byte m st idx b .flags 0x0F#8

@[simp] theorem rowFlgsDecode_fits : rowFlgsDecode.fits (packDw m st idx b) = true ↔ st = .flags :=
  fits_state m st idx b .flags

@[simp] theorem rowAwstStop_fits : rowAwstStop.fits (packDw m st idx b) = true ↔ st = .awaitStop ∧ b = syncStop :=
  fits_state_byte m st idx b .awaitStop 0x00#8

@[simp] theorem rowAwstDesync_fits : rowAwstDesync.fits (packDw m st idx b) = true ↔ st = .awaitStop :=
  fits_state m st idx b .awaitStop

end Rows

section Classes

variable (m : Mode) (idx : BitVec 5) (b : Byte)

/-- The classes of IDLE, by byte. -/
theorem decodeDw_idle :
    decodeDw (packDw m .idle idx b) = if b = syncStart then .idleStart else .idleSkip b := by
  simp only [decodeDw, rowIdleStart_fits, rowIdleSkip_fits, dwByte_packDw, true_and, if_true]

/-- The classes of COLLECT, by byte, mode and position. -/
theorem decodeDw_collect :
    decodeDw (packDw m .collect idx b) =
      if b = syncStart then .collRestart
      else if m = .split ∧ idx = 22#5 then .collChanSplit b
      else if m = .unified ∧ idx = 23#5 then .collChanUnified b
      else .collAccum b := by
  simp only [decodeDw, rowIdleStart_fits, rowIdleSkip_fits, rowCollRestart_fits, rowCollChanSplit_fits,
    rowCollChanUnified_fits, rowCollAccum_fits, dwByte_packDw, reduceCtorEq, false_and, if_false, true_and, if_true]

/-- The classes of FLAGS, by byte. -/
theorem decodeDw_flags :
    decodeDw (packDw m .flags idx b) = if b = syncStart then .flgsRestart else .flgsDecode b := by
  simp only [decodeDw, rowIdleStart_fits, rowIdleSkip_fits, rowCollRestart_fits, rowCollChanSplit_fits,
    rowCollChanUnified_fits, rowCollAccum_fits, rowFlgsRestart_fits, rowFlgsDecode_fits, dwByte_packDw, reduceCtorEq,
    false_and, and_false, if_false, true_and, if_true]

/-- The classes of AWAIT_STOP, by byte. -/
theorem decodeDw_awaitStop :
    decodeDw (packDw m .awaitStop idx b) = if b = syncStop then .awstStop else .awstDesync b := by
  simp only [decodeDw, rowIdleStart_fits, rowIdleSkip_fits, rowCollRestart_fits, rowCollChanSplit_fits,
    rowCollChanUnified_fits, rowCollAccum_fits, rowFlgsRestart_fits, rowFlgsDecode_fits, rowAwstStop_fits, dwByte_packDw,
    reduceCtorEq, false_and, and_false, if_false, true_and]

end Classes

/-- When the first nine rows of R81 do not fit, the tenth does: the decoder's last arm is the table's last row. -/
theorem decodeDw_last_row (w : BitVec 16) (h2 : rowIdleSkip.fits w = false) (h6 : rowCollAccum.fits w = false)
    (h8 : rowFlgsDecode.fits w = false) : rowAwstDesync.fits w = true := by
  rw [← packDw_fields w] at *
  rw [← Bool.not_eq_true] at h2 h6 h8
  simp only [rowIdleSkip_fits, rowCollAccum_fits, rowFlgsDecode_fits, rowAwstDesync_fits] at *
  cases h : dwSt w <;> simp_all

/-- A decode word selects a class, never a kind of edge. -/
theorem decodeDw_is_class (w : BitVec 16) :
    (∀ v, decodeDw w ≠ .reset v) ∧ decodeDw w ≠ .beat ∧ decodeDw w ≠ .idleEdge := by
  rw [← packDw_fields w]
  cases dwSt w <;> simp only [decodeDw_idle, decodeDw_collect, decodeDw_flags, decodeDw_awaitStop] <;>
    (split_ifs <;> simp)

/-- A class's own state is the s field of every word that selects it. -/
theorem decodeDw_state (w : BitVec 16) : (decodeDw w).state? = some (dwSt w) := by
  conv_lhs => rw [← packDw_fields w]
  cases dwSt w <;> simp only [decodeDw_idle, decodeDw_collect, decodeDw_flags, decodeDw_awaitStop] <;>
    (split_ifs <;> rfl)

@[simp] theorem decodeCw_reset (v : Bool) : decodeCw (packCw true v) = .reset v := by cases v <;> rfl

@[simp] theorem decodeCw_beat : decodeCw (packCw false true) = .beat := rfl

@[simp] theorem decodeCw_idleEdge : decodeCw (packCw false false) = .idleEdge := rfl

/-- The kind of an edge, by its two bits. -/
theorem decodeCw_packCw (r v : Bool) :
    decodeCw (packCw r v) = if r then .reset v else if v then .beat else .idleEdge := by
  cases r <;> cases v <;> rfl

end Sys2Proof
end

