-- ==== Sys2Proof/Laws/Memory.lean ====
section
/-! SUPPORT. The payload buffer: reading after a write, every operation keeps the canonical form, and buffers that read the
same are the same data. -/

namespace Sys2Proof.Machine

@[simp] theorem get_nil (k : Nat) : Memory.get [] k = 0#8 := rfl

@[simp] theorem wf_nil : Memory.wf [] := ⟨List.Pairwise.nil, by simp⟩

/-- A canonical buffer's tail is canonical, and every entry after the first lies above it. -/
theorem wf_cons {a : Nat} {x : Byte} {m : Memory} :
    Memory.wf ((a, x) :: m) ↔ (∀ c ∈ m, a < c.1) ∧ a < bufEntries ∧ x ≠ 0#8 ∧ Memory.wf m := by
  simp only [Memory.wf, List.pairwise_cons, List.mem_cons, forall_eq_or_imp]
  tauto

/-- An entry below every listed one reads as 0. -/
theorem get_of_lt {m : Memory} {k : Nat} (h : ∀ c ∈ m, k < c.1) : m.get k = 0#8 := by
  induction m with
  | nil => rfl
  | cons c m ih =>
    obtain ⟨a, x⟩ := c
    have ha : k < a := h (a, x) (by simp)
    simp only [Memory.get, show a ≠ k by omega, if_false]
    exact ih fun c hc => h c (by simp [hc])

/-- A buffer in canonical form lists nothing outside its entries. -/
theorem get_of_ge {m : Memory} (hm : Memory.wf m) {k : Nat} (hk : bufEntries ≤ k) : m.get k = 0#8 := by
  induction m with
  | nil => rfl
  | cons c m ih =>
    obtain ⟨a, x⟩ := c
    obtain ⟨-, ha, -, hm⟩ := wf_cons.mp hm
    simp only [Memory.get, show a ≠ k by omega, if_false]
    exact ih hm

/-- Read after write (R10): the written entry has the written value and every other entry is unchanged. -/
theorem get_put {m : Memory} (hm : Memory.wf m) (k : Nat) (v : Byte) (j : Nat) :
    (m.put k v).get j = if j = k then v else m.get j := by
  induction m with
  | nil =>
    by_cases hv : v = 0#8 <;> by_cases hj : j = k <;> simp [Memory.put, Memory.get, hv, hj, eq_comm]
    exact fun h => absurd h.symm hj
  | cons c m ih =>
    obtain ⟨a, x⟩ := c
    obtain ⟨hlt, ha, hx, hm⟩ := wf_cons.mp hm
    have hbelow : ∀ i, i ≤ a → Memory.get m i = 0#8 := fun i hi => get_of_lt fun c hc => by have := hlt c hc; omega
    rcases lt_trichotomy k a with hk | hk | hk
    · by_cases hj : j = k
      · subst hj
        by_cases hv : v = 0#8
        · simp [Memory.put, Memory.get, hk, hv, hbelow j (by omega), show a ≠ j by omega]
        · simp [Memory.put, Memory.get, hk, hv]
      · by_cases hv : v = 0#8
        · simp [Memory.put, hk, hv, hj]
        · have hkj : ¬ k = j := fun h => hj h.symm
          simp [Memory.put, Memory.get, hk, hv, hj, hkj]
    · subst hk
      by_cases hj : j = k
      · subst hj
        by_cases hv : v = 0#8
        · simp [Memory.put, hv, hbelow j (le_refl j)]
        · simp [Memory.put, Memory.get, hv]
      · have hkj : ¬ k = j := fun h => hj h.symm
        by_cases hv : v = 0#8 <;> simp [Memory.put, Memory.get, hv, hj, hkj]
    · have h1 : ¬ k < a := by omega
      have h2 : ¬ k = a := by omega
      simp only [Memory.put, h1, h2, if_false, Memory.get, ih hm]
      by_cases hj : j = k
      · simp [hj, show ¬ a = k by omega]
      · simp [hj]

/-- Every listed entry of a written buffer was listed before or is the written one. -/
theorem mem_put {m : Memory} {k : Nat} {v : Byte} {c : Host.Cell} (h : c ∈ m.put k v) :
    c ∈ m ∨ (c = (k, v) ∧ v ≠ 0#8) := by
  induction m with
  | nil =>
    by_cases hv : v = 0#8 <;> simp_all [Memory.put]
  | cons d m ih =>
    obtain ⟨a, x⟩ := d
    simp only [Memory.put] at h
    split_ifs at h with h1 h2 h3 h4
    · exact .inl h
    · rcases List.mem_cons.mp h with h | h
      · exact .inr ⟨h, h2⟩
      · exact .inl h
    · exact .inl (List.mem_cons_of_mem _ h)
    · rcases List.mem_cons.mp h with h | h
      · exact .inr ⟨h, h4⟩
      · exact .inl (List.mem_cons_of_mem _ h)
    · rcases List.mem_cons.mp h with h | h
      · exact .inl (h ▸ List.mem_cons_self)
      · rcases ih h with h | h
        · exact .inl (List.mem_cons_of_mem _ h)
        · exact .inr h

/-- A write to an entry that exists keeps the canonical form. -/
theorem put_wf {m : Memory} (hm : Memory.wf m) {k : Nat} (hk : k < bufEntries) (v : Byte) : Memory.wf (m.put k v) := by
  induction m with
  | nil =>
    by_cases hv : v = 0#8
    · simpa [Memory.put, hv] using wf_nil
    · simpa [Memory.put, hv] using wf_cons.mpr ⟨by simp, hk, hv, wf_nil⟩
  | cons c m ih =>
    obtain ⟨a, x⟩ := c
    have hcons := hm
    obtain ⟨hlt, ha, hx, hm⟩ := wf_cons.mp hm
    simp only [Memory.put]
    split_ifs with h1 h2 h3 h4
    · exact hcons
    · refine wf_cons.mpr ⟨fun c hc => ?_, hk, h2, hcons⟩
      rcases List.mem_cons.mp hc with rfl | hc
      · exact h1
      · have := hlt c hc
        omega
    · exact hm
    · exact wf_cons.mpr ⟨fun c hc => h3 ▸ hlt c hc, hk, h4, hm⟩
    · refine wf_cons.mpr ⟨fun c hc => ?_, ha, hx, ih hm⟩
      rcases mem_put hc with hc | ⟨rfl, -⟩
      · exact hlt c hc
      · show a < k
        omega

/-- Buffers in canonical form that read the same at every entry are equal data. -/
theorem wf_ext {m m' : Memory} (hm : Memory.wf m) (hm' : Memory.wf m') (h : ∀ k, m.get k = m'.get k) : m = m' := by
  induction m generalizing m' with
  | nil =>
    cases m' with
    | nil => rfl
    | cons c m' =>
      obtain ⟨a, x⟩ := c
      have := h a
      simp only [Memory.get, if_true] at this
      exact absurd this.symm (wf_cons.mp hm').2.2.1
  | cons c m ih =>
    obtain ⟨a, x⟩ := c
    obtain ⟨hlt, ha, hx, hmt⟩ := wf_cons.mp hm
    cases m' with
    | nil =>
      have := h a
      simp only [Memory.get, if_true] at this
      exact absurd this hx
    | cons c' m' =>
      obtain ⟨a', x'⟩ := c'
      obtain ⟨hlt', ha', hx', hmt'⟩ := wf_cons.mp hm'
      have haa : a = a' := by
        rcases lt_trichotomy a a' with hl | he | hg
        · have h0 := h a
          rw [show Memory.get ((a', x') :: m') a = 0#8 from get_of_lt fun c hc => by
            rcases List.mem_cons.mp hc with rfl | hc
            · exact hl
            · have := hlt' c hc
              omega] at h0
          simp only [Memory.get, if_true] at h0
          exact absurd h0 hx
        · exact he
        · have h0 := h a'
          rw [show Memory.get ((a, x) :: m) a' = 0#8 from get_of_lt fun c hc => by
            rcases List.mem_cons.mp hc with rfl | hc
            · exact hg
            · have := hlt c hc
              omega] at h0
          simp only [Memory.get, if_true] at h0
          exact absurd h0.symm hx'
      subst haa
      have hxx : x = x' := by simpa [Memory.get] using h a
      subst hxx
      congr 1
      refine ih hmt hmt' fun k => ?_
      by_cases hk : a = k
      · subst hk
        rw [get_of_lt hlt, get_of_lt hlt']
      · simpa [Memory.get, hk] using h k

/-- A buffer in canonical form that reads 0 everywhere lists nothing. -/
theorem eq_nil_of_get_zero {m : Memory} (hm : Memory.wf m) (h : ∀ k, m.get k = 0#8) : m = [] :=
  wf_ext hm wf_nil (by simpa using h)

/-- `bufWrite` answers exactly at the entries that exist, and then it is `put`. -/
theorem bufWrite_eq_some {m m' : Memory} {k : Nat} {v : Byte} :
    bufWrite m k v = some m' ↔ k < bufEntries ∧ m' = m.put k v := by
  unfold bufWrite
  split_ifs with h
  · simp [h, eq_comm]
  · simp [h]

/-- `bufRead` answers exactly at the entries that exist. -/
theorem bufRead_of_lt {m : Memory} {k : Nat} (h : k < bufEntries) : bufRead m k = some (m.get k) := by
  simp [bufRead, h]

end Sys2Proof.Machine
end

