-- ==== Sys2Proof/Laws/State.lean ====
section
/-! SUPPORT. One lemma per field per update of the state, true by rfl, so that no proof unfolds a record update. -/

namespace Sys2Proof.Machine

variable {tsw : Nat}

@[simp] theorem startFrame_mode (s : Block tsw) : (startFrame s).mode = s.mode := rfl
@[simp] theorem startFrame_st (s : Block tsw) : (startFrame s).st = .collect := rfl
@[simp] theorem startFrame_idx (s : Block tsw) : (startFrame s).idx = 1#5 := rfl
@[simp] theorem startFrame_buf (s : Block tsw) : (startFrame s).buf = [] := rfl
@[simp] theorem startFrame_fs (s : Block tsw) : (startFrame s).fs = 0#tsw := rfl
@[simp] theorem startFrame_evValid (s : Block tsw) : (startFrame s).evValid = s.evValid := rfl
@[simp] theorem startFrame_evKind (s : Block tsw) : (startFrame s).evKind = s.evKind := rfl
@[simp] theorem startFrame_evErr (s : Block tsw) : (startFrame s).evErr = s.evErr := rfl
@[simp] theorem startFrame_evTsStart (s : Block tsw) : (startFrame s).evTsStart = s.evTsStart := rfl
@[simp] theorem startFrame_evTsEnd (s : Block tsw) : (startFrame s).evTsEnd = s.evTsEnd := rfl
@[simp] theorem startFrame_chRaw (s : Block tsw) : (startFrame s).chRaw = s.chRaw := rfl
@[simp] theorem startFrame_flagsByte (s : Block tsw) : (startFrame s).flagsByte = s.flagsByte := rfl
@[simp] theorem startFrame_inputs (s : Block tsw) : (startFrame s).inputs = s.inputs := rfl

@[simp] theorem clearFrame_mode (s : Block tsw) : (clearFrame s).mode = s.mode := rfl
@[simp] theorem clearFrame_st (s : Block tsw) : (clearFrame s).st = .idle := rfl
@[simp] theorem clearFrame_idx (s : Block tsw) : (clearFrame s).idx = 0#5 := rfl
@[simp] theorem clearFrame_buf (s : Block tsw) : (clearFrame s).buf = [] := rfl
@[simp] theorem clearFrame_fs (s : Block tsw) : (clearFrame s).fs = 0#tsw := rfl
@[simp] theorem clearFrame_evValid (s : Block tsw) : (clearFrame s).evValid = s.evValid := rfl
@[simp] theorem clearFrame_evKind (s : Block tsw) : (clearFrame s).evKind = s.evKind := rfl
@[simp] theorem clearFrame_evErr (s : Block tsw) : (clearFrame s).evErr = s.evErr := rfl
@[simp] theorem clearFrame_evTsStart (s : Block tsw) : (clearFrame s).evTsStart = s.evTsStart := rfl
@[simp] theorem clearFrame_evTsEnd (s : Block tsw) : (clearFrame s).evTsEnd = s.evTsEnd := rfl
@[simp] theorem clearFrame_chRaw (s : Block tsw) : (clearFrame s).chRaw = s.chRaw := rfl
@[simp] theorem clearFrame_flagsByte (s : Block tsw) : (clearFrame s).flagsByte = s.flagsByte := rfl
@[simp] theorem clearFrame_inputs (s : Block tsw) : (clearFrame s).inputs = s.inputs := rfl

@[simp] theorem nextEdge_mode (s : Block tsw) : s.nextEdge.mode = s.mode := rfl
@[simp] theorem nextEdge_st (s : Block tsw) : s.nextEdge.st = s.st := rfl
@[simp] theorem nextEdge_idx (s : Block tsw) : s.nextEdge.idx = s.idx := rfl
@[simp] theorem nextEdge_buf (s : Block tsw) : s.nextEdge.buf = s.buf := rfl
@[simp] theorem nextEdge_fs (s : Block tsw) : s.nextEdge.fs = s.fs := rfl
@[simp] theorem nextEdge_evValid (s : Block tsw) : s.nextEdge.evValid = s.evValid := rfl
@[simp] theorem nextEdge_evKind (s : Block tsw) : s.nextEdge.evKind = s.evKind := rfl
@[simp] theorem nextEdge_evErr (s : Block tsw) : s.nextEdge.evErr = s.evErr := rfl
@[simp] theorem nextEdge_evTsStart (s : Block tsw) : s.nextEdge.evTsStart = s.evTsStart := rfl
@[simp] theorem nextEdge_evTsEnd (s : Block tsw) : s.nextEdge.evTsEnd = s.evTsEnd := rfl
@[simp] theorem nextEdge_chRaw (s : Block tsw) : s.nextEdge.chRaw = s.chRaw := rfl
@[simp] theorem nextEdge_flagsByte (s : Block tsw) : s.nextEdge.flagsByte = s.flagsByte := rfl
@[simp] theorem nextEdge_inputs (s : Block tsw) : s.nextEdge.inputs = s.inputs.tail := rfl

@[simp] theorem updateOutputs_mode (e : Event tsw) (s : Block tsw) : (updateOutputs e s).mode = s.mode := rfl
@[simp] theorem updateOutputs_st (e : Event tsw) (s : Block tsw) : (updateOutputs e s).st = s.st := rfl
@[simp] theorem updateOutputs_idx (e : Event tsw) (s : Block tsw) : (updateOutputs e s).idx = s.idx := rfl
@[simp] theorem updateOutputs_buf (e : Event tsw) (s : Block tsw) : (updateOutputs e s).buf = s.buf := rfl
@[simp] theorem updateOutputs_fs (e : Event tsw) (s : Block tsw) : (updateOutputs e s).fs = s.fs := rfl
@[simp] theorem updateOutputs_evValid (e : Event tsw) (s : Block tsw) : (updateOutputs e s).evValid = (e.body.kind != .none) := rfl
@[simp] theorem updateOutputs_evKind (e : Event tsw) (s : Block tsw) : (updateOutputs e s).evKind = e.body.kind := rfl
@[simp] theorem updateOutputs_evErr (e : Event tsw) (s : Block tsw) : (updateOutputs e s).evErr = e.err := rfl
@[simp] theorem updateOutputs_evTsStart (e : Event tsw) (s : Block tsw) : (updateOutputs e s).evTsStart = e.tsStart := rfl
@[simp] theorem updateOutputs_evTsEnd (e : Event tsw) (s : Block tsw) : (updateOutputs e s).evTsEnd = e.tsEnd := rfl
@[simp] theorem updateOutputs_chRaw (e : Event tsw) (s : Block tsw) : (updateOutputs e s).chRaw = e.body.rawOr s.chRaw := rfl
@[simp] theorem updateOutputs_flagsByte (e : Event tsw) (s : Block tsw) : (updateOutputs e s).flagsByte = e.body.flagsOr s.flagsByte := rfl
@[simp] theorem updateOutputs_inputs (e : Event tsw) (s : Block tsw) : (updateOutputs e s).inputs = s.inputs := rfl

@[simp] theorem Block.reset_mode (m : Mode) : (Block.reset m tsw).mode = m := rfl
@[simp] theorem Block.reset_st (m : Mode) : (Block.reset m tsw).st = .idle := rfl
@[simp] theorem Block.reset_idx (m : Mode) : (Block.reset m tsw).idx = 0#5 := rfl
@[simp] theorem Block.reset_buf (m : Mode) : (Block.reset m tsw).buf = [] := rfl
@[simp] theorem Block.reset_fs (m : Mode) : (Block.reset m tsw).fs = 0#tsw := rfl
@[simp] theorem Block.reset_evValid (m : Mode) : (Block.reset m tsw).evValid = false := rfl
@[simp] theorem Block.reset_evKind (m : Mode) : (Block.reset m tsw).evKind = .none := rfl
@[simp] theorem Block.reset_evErr (m : Mode) : (Block.reset m tsw).evErr = .none := rfl
@[simp] theorem Block.reset_evTsStart (m : Mode) : (Block.reset m tsw).evTsStart = 0#tsw := rfl
@[simp] theorem Block.reset_evTsEnd (m : Mode) : (Block.reset m tsw).evTsEnd = 0#tsw := rfl
@[simp] theorem Block.reset_chRaw (m : Mode) : (Block.reset m tsw).chRaw = Vector.replicate 16 0#11 := rfl
@[simp] theorem Block.reset_flagsByte (m : Mode) : (Block.reset m tsw).flagsByte = 0#8 := rfl
@[simp] theorem Block.reset_inputs (m : Mode) : (Block.reset m tsw).inputs = [] := rfl

@[simp] theorem present_mode (p : Ports tsw) (s : Block tsw) : (s.present p).mode = s.mode := rfl
@[simp] theorem present_st (p : Ports tsw) (s : Block tsw) : (s.present p).st = s.st := rfl
@[simp] theorem present_idx (p : Ports tsw) (s : Block tsw) : (s.present p).idx = s.idx := rfl
@[simp] theorem present_buf (p : Ports tsw) (s : Block tsw) : (s.present p).buf = s.buf := rfl
@[simp] theorem present_fs (p : Ports tsw) (s : Block tsw) : (s.present p).fs = s.fs := rfl
@[simp] theorem present_evValid (p : Ports tsw) (s : Block tsw) : (s.present p).evValid = s.evValid := rfl
@[simp] theorem present_evKind (p : Ports tsw) (s : Block tsw) : (s.present p).evKind = s.evKind := rfl
@[simp] theorem present_evErr (p : Ports tsw) (s : Block tsw) : (s.present p).evErr = s.evErr := rfl
@[simp] theorem present_evTsStart (p : Ports tsw) (s : Block tsw) : (s.present p).evTsStart = s.evTsStart := rfl
@[simp] theorem present_evTsEnd (p : Ports tsw) (s : Block tsw) : (s.present p).evTsEnd = s.evTsEnd := rfl
@[simp] theorem present_chRaw (p : Ports tsw) (s : Block tsw) : (s.present p).chRaw = s.chRaw := rfl
@[simp] theorem present_flagsByte (p : Ports tsw) (s : Block tsw) : (s.present p).flagsByte = s.flagsByte := rfl
@[simp] theorem present_inputs (p : Ports tsw) (s : Block tsw) : (s.present p).inputs = p :: s.inputs.tail := rfl

@[simp] theorem present_ports (p : Ports tsw) (s : Block tsw) : (s.present p).ports = p := rfl

@[simp] theorem commit_eq (e : Event tsw) (s : Block tsw) : commit e s = .next ⟨tsw, (updateOutputs e s).nextEdge⟩ := rfl

end Sys2Proof.Machine
end

