-- ==== Sys2Proof/Laws/Edge.lean ====
section
/-! SUPPORT. What an edge presents, what the guard of every meaning can answer, and the forms of one step: a reset edge, an
idle edge, or a beat that performs the class of its decode word. -/

namespace Sys2Proof.Machine

variable {tsw : Nat}

theorem decodeCw_controlWord (s : Block tsw) :
    decodeCw s.controlWord = if s.ports.rst then .reset s.ports.inValid else if s.ports.inValid then .beat else .idleEdge :=
  decodeCw_packCw _ _

theorem packCw_bits (c : BitVec 2) : packCw (c.getLsbD 1) (c.getLsbD 0) = c := by revert c; decide

/-- A reset edge presents RESET with its own in_valid bit, and nothing else. -/
theorem presents_of_rst {s : Block tsw} (hr : s.ports.rst = true) (i : Instr) :
    s.presents i = true ↔ i = .reset s.ports.inValid := by
  simp [Block.presents, decodeCw_controlWord, hr, @eq_comm _ i]

/-- An idle edge presents IDLE_EDGE, and nothing else. -/
theorem presents_of_idle {s : Block tsw} (hr : s.ports.rst = false) (hv : s.ports.inValid = false) (i : Instr) :
    s.presents i = true ↔ i = .idleEdge := by
  simp [Block.presents, decodeCw_controlWord, hr, hv, @eq_comm _ i]

/-- A beat presents BEAT and the class of its decode word, and nothing else. -/
theorem presents_of_beat {s : Block tsw} (hr : s.ports.rst = false) (hv : s.ports.inValid = true) (i : Instr) :
    s.presents i = true ↔ i = .beat ∨ i = decodeDw s.decodeWord := by
  simp [Block.presents, decodeCw_controlWord, hr, hv, @eq_comm _ i]

/-- Everything the guard of a meaning can answer when it answers a next state. -/
theorem onReachableEdge_next {i : Instr} {s : Block tsw} {t : State} {k : Timestamp tsw → Timestamp tsw → Result} :
    onReachableEdge i s k = .next t ↔
      s.reachable = true ∧ s.presents i = true ∧ k s.ports.inTsStart s.ports.inTsEnd = .next t := by
  unfold onReachableEdge onEdge
  cases s.reachable <;> cases s.presents i <;> simp

theorem onEdge_next {i : Instr} {s : Block tsw} {t : State} {k : Timestamp tsw → Timestamp tsw → Result} :
    onEdge i s k = .next t ↔ s.presents i = true ∧ k s.ports.inTsStart s.ports.inTsEnd = .next t := by
  unfold onEdge
  cases s.presents i <;> simp

/-- On the edge that presents it, in a reachable position, a meaning is what it performs. -/
theorem onReachableEdge_of {i : Instr} {s : Block tsw} (k : Timestamp tsw → Timestamp tsw → Result) (hs : s.reachable = true)
    (hi : s.presents i = true) : onReachableEdge i s k = k s.ports.inTsStart s.ports.inTsEnd := by
  simp [onReachableEdge, onEdge, hs, hi]

theorem onReachableEdge_unreachable {i : Instr} {s : Block tsw} (k : Timestamp tsw → Timestamp tsw → Result)
    (hs : s.reachable = false) : onReachableEdge i s k = .refused .unreachableState := by
  simp [onReachableEdge, hs]

/-- Performing a class is running it, for each of the ten classes. -/
theorem performClass_decodeDw (w : BitVec 16) (s : State) : performClass (decodeDw w) s = exec (decodeDw w) s := by
  obtain ⟨h1, h2, h3⟩ := decodeDw_is_class w
  generalize decodeDw w = i at *
  cases i <;> first | rfl | simp_all

/-- A class in a register state outside the reachable triples is refused by name (R87). -/
theorem exec_class_unreachable (w : BitVec 16) {s : Block tsw} (hs : s.reachable = false) :
    exec (decodeDw w) ⟨tsw, s⟩ = .refused .unreachableState := by
  obtain ⟨h1, h2, h3⟩ := decodeDw_is_class w
  generalize decodeDw w = i at *
  cases i <;> first | exact onReachableEdge_unreachable _ hs | simp_all

theorem step_of_rst {s : Block tsw} (hr : s.ports.rst = true) : step ⟨tsw, s⟩ = exec (.reset s.ports.inValid) ⟨tsw, s⟩ := by
  simp [step, decodeCw_controlWord, hr]

theorem step_of_idle {s : Block tsw} (hr : s.ports.rst = false) (hv : s.ports.inValid = false) :
    step ⟨tsw, s⟩ = exec .idleEdge ⟨tsw, s⟩ := by
  simp [step, decodeCw_controlWord, hr, hv]

theorem step_of_beat {s : Block tsw} (hr : s.ports.rst = false) (hv : s.ports.inValid = true) :
    step ⟨tsw, s⟩ = exec .beat ⟨tsw, s⟩ := by
  simp [step, decodeCw_controlWord, hr, hv]

/-- A beat is its class (R101), in every register state. -/
theorem exec_beat {s : Block tsw} (hr : s.ports.rst = false) (hv : s.ports.inValid = true) :
    exec .beat ⟨tsw, s⟩ = exec (decodeDw s.decodeWord) ⟨tsw, s⟩ := by
  show onReachableEdge .beat s _ = _
  cases hs : s.reachable
  · rw [onReachableEdge_unreachable _ hs, exec_class_unreachable _ hs]
  · rw [onReachableEdge_of _ hs ((presents_of_beat hr hv .beat).mpr (.inl rfl))]
    exact performClass_decodeDw _ ⟨tsw, s⟩

theorem step_of_beat_class {s : Block tsw} (hr : s.ports.rst = false) (hv : s.ports.inValid = true) :
    step ⟨tsw, s⟩ = exec (decodeDw s.decodeWord) ⟨tsw, s⟩ := (step_of_beat hr hv).trans (exec_beat hr hv)

@[simp] theorem present_controlWord (p : Ports tsw) (s : Block tsw) : (s.present p).controlWord = packCw p.rst p.inValid := rfl

@[simp] theorem present_decodeWord (p : Ports tsw) (s : Block tsw) :
    (s.present p).decodeWord = packDw s.mode s.st s.idx p.inByte := rfl

/-- Presenting a table word selects its instruction: a control word's kind of edge, a decode word's class. -/
theorem presentedAt_class (w : BitVec 16) :
    decodeDw (packDw (presentedAt w).1 (dwSt w) (presentedAt w).2 (dwByte w)) = decodeDw w := by
  conv_rhs => rw [← packDw_fields w]
  unfold presentedAt
  split_ifs with h
  · rfl
  · cases hs : dwSt w <;> simp only [decodeDw_idle, decodeDw_collect, decodeDw_flags, decodeDw_awaitStop]
    have hidx : ¬ (dwMode w = .split ∧ dwIdx w = 22#5) ∧ ¬ (dwMode w = .unified ∧ dwIdx w = 23#5) := by
      constructor <;> rintro ⟨hm, hi⟩ <;> exact h (by rw [hs, hm, hi]; decide)
    simp [hidx.1, hidx.2]

theorem presentedAt_reachable (w : BitVec 16) : reachableTriple (presentedAt w).1 (dwSt w) (presentedAt w).2 = true := by
  unfold presentedAt
  split_ifs with h
  · exact h
  · cases hs : dwSt w
    · rfl
    · cases dwMode w <;> rfl
    · rfl
    · rfl

/-- The step after presenting a table word runs exactly the instruction the decoder reads from it. -/
theorem step_withFetchWord {s : State} {nbits w : Nat} {i : Instr} (h : decodeTableWord nbits w = some i) :
    step (s.withFetchWord nbits w) = exec i (s.withFetchWord nbits w) := by
  obtain ⟨tsw, s⟩ := s
  unfold decodeTableWord at h
  unfold State.withFetchWord Block.presentWord
  split at h
  · rename_i e he
    rw [he]
    obtain rfl : decode e = i := by simpa using h
    cases e with
    | cw c =>
      show exec (decodeCw (packCw (c.getLsbD 1) (c.getLsbD 0))) _ = exec (decodeCw c) _
      rw [packCw_bits]
    | dw d =>
      show step ⟨tsw, _⟩ = exec (decodeDw d) _
      rw [step_of_beat_class rfl rfl]
      congr 1
      exact presentedAt_class d
  · simp at h

end Sys2Proof.Machine
end

