-- ==== Sys2Proof/Laws/Operands.lean ====
section
/-! SUPPORT. The slicer's operands, byte by byte (R150). -/

namespace Sys2Proof.Machine

@[simp] theorem analogBytes_getElem (m : Memory) (k : Nat) (hk : k < 22) : (analogBytes m)[k] = m.get k := by
  simp [analogBytes]

@[simp] theorem analogBytesWith_getElem (m : Memory) (b : Byte) (k : Nat) (hk : k < 22) :
    (analogBytesWith m b)[k] = if k = 21 then b else m.get k := by
  simp [analogBytesWith, Vector.getElem_set, eq_comm]

/-- `[buf[0], ..., buf[21]]` written out (R107). -/
theorem analogBytes_eq (m : Memory) : analogBytes m =
    #v[m.get 0, m.get 1, m.get 2, m.get 3, m.get 4, m.get 5, m.get 6, m.get 7, m.get 8, m.get 9, m.get 10, m.get 11,
      m.get 12, m.get 13, m.get 14, m.get 15, m.get 16, m.get 17, m.get 18, m.get 19, m.get 20, m.get 21] := by
  ext1 k hk
  rw [analogBytes_getElem]
  interval_cases k <;> rfl

/-- `[buf[0], ..., buf[20], b]` written out (R106). -/
theorem analogBytesWith_eq (m : Memory) (b : Byte) : analogBytesWith m b =
    #v[m.get 0, m.get 1, m.get 2, m.get 3, m.get 4, m.get 5, m.get 6, m.get 7, m.get 8, m.get 9, m.get 10, m.get 11,
      m.get 12, m.get 13, m.get 14, m.get 15, m.get 16, m.get 17, m.get 18, m.get 19, m.get 20, b] := by
  ext1 k hk
  rw [analogBytesWith_getElem]
  interval_cases k <;> rfl

end Sys2Proof.Machine
end

