-- ==== Sys2Proof/Laws/Outputs.lean ====
section
/-! SUPPORT. What the consumer samples, by the last event record. -/

namespace Sys2Proof.Machine

/-- After a beat the consumer samples that beat's own record (R32, R236), and nothing if its kind is NONE. -/
theorem sampled_updateOutputs {tsw : Nat} (e : Event tsw) (s : Block tsw) :
    (updateOutputs e s).nextEdge.sampled = if e.body = .none then [] else [e] := by
  obtain ⟨body, err, t0, t1⟩ := e
  cases body <;> rfl

end Sys2Proof.Machine
end

