-- ==== Sys2Proof/Laws/PerInstr.lean ====
section
/-! SUPPORT. The per-instruction family EncodeState: the encoder writes a kind of edge as a control word and a class as a
decode word whose s field is the class's own state. -/

namespace Sys2Proof.Laws.EncodeState

/-- The format and state field of an instruction's word (R80, R82). -/
def Statement (i : Instr) : Prop :=
  ∀ (m : Mode) (idx : BitVec 5), match i.state? with
    | none => ∃ w, encode m idx i = .cw w
    | some st => ∃ w, encode m idx i = .dw w ∧ dwSt w = st

theorem idleStart : Statement .idleStart := fun _ _ => ⟨_, rfl, dwSt_packDw ..⟩
theorem idleSkip (b : Byte) : Statement (.idleSkip b) := fun _ _ => ⟨_, rfl, dwSt_packDw ..⟩
theorem collRestart : Statement .collRestart := fun _ _ => ⟨_, rfl, dwSt_packDw ..⟩
theorem collChanSplit (b : Byte) : Statement (.collChanSplit b) := fun _ _ => ⟨_, rfl, dwSt_packDw ..⟩
theorem collChanUnified (b : Byte) : Statement (.collChanUnified b) := fun _ _ => ⟨_, rfl, dwSt_packDw ..⟩
theorem collAccum (b : Byte) : Statement (.collAccum b) := fun _ _ => ⟨_, rfl, dwSt_packDw ..⟩
theorem flgsRestart : Statement .flgsRestart := fun _ _ => ⟨_, rfl, dwSt_packDw ..⟩
theorem flgsDecode (b : Byte) : Statement (.flgsDecode b) := fun _ _ => ⟨_, rfl, dwSt_packDw ..⟩
theorem awstStop : Statement .awstStop := fun _ _ => ⟨_, rfl, dwSt_packDw ..⟩
theorem awstDesync (b : Byte) : Statement (.awstDesync b) := fun _ _ => ⟨_, rfl, dwSt_packDw ..⟩
theorem reset (inValid : Bool) : Statement (.reset inValid) := fun _ _ => ⟨_, rfl⟩
theorem beat : Statement .beat := fun _ _ => ⟨_, rfl⟩
theorem idleEdge : Statement .idleEdge := fun _ _ => ⟨_, rfl⟩

end Sys2Proof.Laws.EncodeState
end

