-- ==== Sys2Proof/Laws/Slicer.lean ====
section
/-! SUPPORT. The two little-endian numbers of the bit-slicer, bit by bit, and their bounds. -/

namespace Sys2Proof.Machine

/-- One digit below a number: the low `w` bits are the digit's, the rest the number's. -/
theorem testBit_digit {w : Nat} (d : BitVec w) (n k : Nat) :
    (d.toNat + 2 ^ w * n).testBit k = if k < w then d.getLsbD k else n.testBit (k - w) := by
  rw [Nat.add_comm, Nat.testBit_two_pow_mul_add _ d.isLt, BitVec.testBit_toNat]

theorem digit_lt {w n N : Nat} (d : BitVec w) (h : n < 2 ^ N) : d.toNat + 2 ^ w * n < 2 ^ (w + N) := by
  have hd := d.isLt
  have : 2 ^ w * n + 2 ^ w ≤ 2 ^ w * 2 ^ N := by
    rw [← Nat.mul_succ]
    exact Nat.mul_le_mul_left _ h
  rw [Nat.pow_add]
  omega

/-- Bit `k` of the bytes' number is bit `k mod 8` of byte `k div 8` (R64). -/
theorem bytesToNat_testBit (bs : List Byte) (k : Nat) :
    (bytesToNat bs).testBit k = (bs.getD (k / 8) 0#8).getLsbD (k % 8) := by
  induction bs generalizing k with
  | nil => simp [bytesToNat]
  | cons b bs ih =>
    rw [bytesToNat, testBit_digit]
    by_cases hk : k < 8
    · simp [hk, Nat.div_eq_of_lt hk, Nat.mod_eq_of_lt hk]
    · rw [if_neg hk, ih]
      have h1 : k / 8 = (k - 8) / 8 + 1 := by omega
      have h2 : k % 8 = (k - 8) % 8 := by omega
      rw [h1, h2, List.getD_cons_succ]

theorem bytesToNat_lt (bs : List Byte) : bytesToNat bs < 2 ^ (8 * bs.length) := by
  induction bs with
  | nil => simp [bytesToNat]
  | cons b bs ih =>
    rw [bytesToNat, List.length_cons, show 8 * (bs.length + 1) = 8 + 8 * bs.length by ring]
    exact digit_lt b ih

/-- Bit `k` of the channels' number is bit `k mod 11` of channel `k div 11`. -/
theorem channelsToNat_testBit (rs : List RawChannel) (k : Nat) :
    (channelsToNat rs).testBit k = (rs.getD (k / 11) 0#11).getLsbD (k % 11) := by
  induction rs generalizing k with
  | nil => simp [channelsToNat]
  | cons r rs ih =>
    rw [channelsToNat, testBit_digit]
    by_cases hk : k < 11
    · simp [hk, Nat.div_eq_of_lt hk, Nat.mod_eq_of_lt hk]
    · rw [if_neg hk, ih]
      have h1 : k / 11 = (k - 11) / 11 + 1 := by omega
      have h2 : k % 11 = (k - 11) % 11 := by omega
      rw [h1, h2, List.getD_cons_succ]

theorem channelsToNat_lt (rs : List RawChannel) : channelsToNat rs < 2 ^ (11 * rs.length) := by
  induction rs with
  | nil => simp [channelsToNat]
  | cons r rs ih =>
    rw [channelsToNat, List.length_cons, show 11 * (rs.length + 1) = 11 + 11 * rs.length by ring]
    exact digit_lt r ih

/-- The 176-bit stream loses nothing of the 22 bytes' number. -/
theorem payloadStream_toNat (p : AnalogBytes) : (payloadStream p).toNat = bytesToNat p.toList := by
  have h := bytesToNat_lt p.toList
  rw [Vector.length_toList] at h
  simp only [payloadStream, BitVec.toNat_ofNat]
  exact Nat.mod_eq_of_lt h

/-- The 176-bit bus loses nothing of the 16 channels' number. -/
theorem channelBus_toNat (r : Channels) : (channelBus r).toNat = channelsToNat r.toList := by
  have h := channelsToNat_lt r.toList
  rw [Vector.length_toList] at h
  simp only [channelBus, BitVec.toNat_ofNat]
  exact Nat.mod_eq_of_lt h

/-- `B[k] = P[k div 8][k mod 8]` (R64, R151). -/
theorem payloadStream_getLsbD (p : AnalogBytes) (k : Nat) (hk : k < 176) :
    (payloadStream p).getLsbD k = (p[k / 8]'(by omega)).getLsbD (k % 8) := by
  rw [← BitVec.testBit_toNat, payloadStream_toNat, bytesToNat_testBit, List.getD_eq_getElem _ _ (by simp; omega)]
  simp

/-- Bit `k` of the flat bus is bit `k mod 11` of channel `k div 11` (R23). -/
theorem channelBus_getLsbD (r : Channels) (k : Nat) (hk : k < 176) :
    (channelBus r).getLsbD k = (r[k / 11]'(by omega)).getLsbD (k % 11) := by
  rw [← BitVec.testBit_toNat, channelBus_toNat, channelsToNat_testBit, List.getD_eq_getElem _ _ (by simp; omega)]
  simp

/-- The number of the bytes `f 0, ..., f (n-1)` is `sum_k f(k) * 2^(8*k)` (R64). -/
theorem bytesToNat_ofFn {n : Nat} (f : Fin n → Byte) :
    bytesToNat (List.ofFn f) = ∑ k : Fin n, (f k).toNat * 2 ^ (8 * k.val) := by
  induction n with
  | zero => simp [bytesToNat]
  | succ n ih =>
    rw [List.ofFn_succ, bytesToNat, ih, Fin.sum_univ_succ, Finset.mul_sum]
    simp only [Fin.val_zero, Nat.mul_zero, pow_zero, Nat.mul_one, Fin.val_succ, mul_add, pow_add]
    congr 1
    apply Finset.sum_congr rfl
    intros
    ring

/-- The number of the channels `f 0, ..., f (n-1)` is `sum_i f(i) * 2^(11*i)` (R154). -/
theorem channelsToNat_ofFn {n : Nat} (f : Fin n → RawChannel) :
    channelsToNat (List.ofFn f) = ∑ i : Fin n, (f i).toNat * 2 ^ (11 * i.val) := by
  induction n with
  | zero => simp [channelsToNat]
  | succ n ih =>
    rw [List.ofFn_succ, channelsToNat, ih, Fin.sum_univ_succ, Finset.mul_sum]
    simp only [Fin.val_zero, Nat.mul_zero, pow_zero, Nat.mul_one, Fin.val_succ, mul_add, pow_add]
    congr 1
    apply Finset.sum_congr rfl
    intros
    ring

theorem vector_toList_eq_ofFn {α : Type} {n : Nat} (v : Vector α n) : v.toList = List.ofFn fun k : Fin n => v[k] := by
  apply List.ext_getElem <;> simp

theorem unpack_getElem (p : AnalogBytes) (i : Nat) (hi : i < 16) :
    (unpack p)[i] = (payloadStream p).extractLsb' (11 * i) 11 := by
  simp [unpack]

theorem pack_getElem (r : Channels) (k : Nat) (hk : k < 22) : (pack r)[k] = (channelBus r).extractLsb' (8 * k) 8 := by
  simp [pack]

end Sys2Proof.Machine
end

