-- ==== Sys2Proof/Laws/Step.lean ====
section
/-! SUPPORT. Once and for all, everything a step can do: the thirteen cases of `StepCase`, guards included. -/

namespace Sys2Proof.Machine

variable {tsw : Nat}

/-- The ways a step from `s` reaches a next state, with the conditions under which each is taken. -/
inductive StepCase (s : Block tsw) : Block tsw → Prop
  | reset (hr : s.ports.rst = true) : StepCase s { Block.reset s.mode tsw with inputs := s.inputs.tail }
  | idleEdge (hr : s.ports.rst = false) (hv : s.ports.inValid = false) (hs : s.reachable = true) :
    StepCase s { s with evValid := false, evKind := .none, evErr := .none, inputs := s.inputs.tail }
  | idleStart (hb : BeatOf s syncStart) (hst : s.st = .idle) :
    StepCase s (updateOutputs ⟨.start, .none, s.ports.inTsStart, s.ports.inTsEnd⟩ (startFrame s)).nextEdge
  | idleSkip (b : Byte) (hb : BeatOf s b) (hst : s.st = .idle) (hne : b ≠ syncStart) :
    StepCase s (updateOutputs ⟨.none, .none, s.ports.inTsStart, s.ports.inTsEnd⟩ s).nextEdge
  | collRestart (hb : BeatOf s syncStart) (hst : s.st = .collect) :
    StepCase s (updateOutputs ⟨.start, .prematureStart, s.ports.inTsStart, s.ports.inTsEnd⟩ (startFrame s)).nextEdge
  | collChanSplit (b : Byte) (hb : BeatOf s b) (hst : s.st = .collect) (hne : b ≠ syncStart) (hm : s.mode = .split)
      (hi : s.idx = 22#5) :
    StepCase s (updateOutputs ⟨.chan (unpack (analogBytesWith s.buf b)), .none, s.fs, s.ports.inTsEnd⟩
      { s with buf := s.buf.put 21 b, st := .flags, idx := 23#5 }).nextEdge
  | collChanUnified (b : Byte) (hb : BeatOf s b) (hst : s.st = .collect) (hne : b ≠ syncStart) (hm : s.mode = .unified)
      (hi : s.idx = 23#5) :
    StepCase s (updateOutputs ⟨.chan (unpack (analogBytes s.buf)), .none, s.fs, s.ports.inTsEnd⟩
      { s with buf := s.buf.put 22 b, st := .awaitStop, idx := 24#5 }).nextEdge
  | collAccum (b : Byte) (hb : BeatOf s b) (hst : s.st = .collect) (hne : b ≠ syncStart) (h1 : 1 ≤ s.idx.toNat)
      (hi : s.idx.toNat < cap s.mode) :
    StepCase s (updateOutputs ⟨.none, .none, s.ports.inTsStart, s.ports.inTsEnd⟩
      { s with
        fs := if s.idx = 1#5 then s.ports.inTsStart else s.fs
        buf := s.buf.put (s.idx.toNat - 1) b
        idx := s.idx + 1#5 }).nextEdge
  | flgsRestart (hb : BeatOf s syncStart) (hst : s.st = .flags) :
    StepCase s (updateOutputs ⟨.start, .prematureStart, s.ports.inTsStart, s.ports.inTsEnd⟩ (startFrame s)).nextEdge
  | flgsDecode (b : Byte) (hb : BeatOf s b) (hst : s.st = .flags) (hne : b ≠ syncStart) :
    StepCase s (updateOutputs ⟨.flag b, .none, s.ports.inTsStart, s.ports.inTsEnd⟩
      { s with st := .awaitStop, idx := 24#5 }).nextEdge
  | awstStop (hb : BeatOf s syncStop) (hst : s.st = .awaitStop) :
    StepCase s (updateOutputs ⟨.stop, .none, s.ports.inTsStart, s.ports.inTsEnd⟩ (clearFrame s)).nextEdge
  | awstDesync (b : Byte) (hb : BeatOf s b) (hst : s.st = .awaitStop) (hne : b ≠ syncStop) :
    StepCase s (updateOutputs ⟨.desync, .badTerminator, s.ports.inTsStart, s.ports.inTsEnd⟩ (clearFrame s)).nextEdge

/-- In COLLECT a reachable position is 1 to CAP (R87). -/
theorem reachable_collect {s : Block tsw} (hs : s.reachable = true) (hst : s.st = .collect) :
    1 ≤ s.idx.toNat ∧ s.idx.toNat ≤ cap s.mode := by
  simpa [Block.reachable, reachableTriple, hst] using hs

theorem reachable_idle {s : Block tsw} (hs : s.reachable = true) (hst : s.st = .idle) : s.idx = 0#5 := by
  have h : s.idx.toNat = 0 := by simpa [Block.reachable, reachableTriple, hst] using hs
  exact BitVec.eq_of_toNat_eq h

theorem reachable_flags {s : Block tsw} (hs : s.reachable = true) (hst : s.st = .flags) :
    s.mode = .split ∧ s.idx = 23#5 := by
  have h : s.mode = .split ∧ s.idx.toNat = 23 := by
    simpa [Block.reachable, reachableTriple, hst, flagsPos] using hs
  exact ⟨h.1, BitVec.eq_of_toNat_eq h.2⟩

theorem reachable_awaitStop {s : Block tsw} (hs : s.reachable = true) (hst : s.st = .awaitStop) : s.idx = 24#5 := by
  have h : s.idx.toNat = 24 := by simpa [Block.reachable, reachableTriple, hst, stopPos] using hs
  exact BitVec.eq_of_toNat_eq h

/-- COLL_ACCUM's place in the buffer exists in every reachable position (R61). -/
theorem accum_entry_lt {s : Block tsw} (hs : s.reachable = true) (hst : s.st = .collect) :
    s.idx.toNat - 1 < bufEntries := by
  have h := (reachable_collect hs hst).2
  have hc : cap s.mode ≤ 23 := by cases s.mode <;> decide
  unfold bufEntries
  omega

/-- At the last payload position a COLLECT beat is a CHAN class of the instance's mode, at every other one COLL_ACCUM. -/
theorem decodeDw_collect_of_reachable {s : Block tsw} {b : Byte} (hb : BeatOf s b) (hst : s.st = .collect)
    (hne : b ≠ syncStart) :
    (s.mode = .split ∧ s.idx = 22#5 ∧ decodeDw s.decodeWord = .collChanSplit b) ∨
    (s.mode = .unified ∧ s.idx = 23#5 ∧ decodeDw s.decodeWord = .collChanUnified b) ∨
    (s.idx.toNat < cap s.mode ∧ decodeDw s.decodeWord = .collAccum b) := by
  have hc := (reachable_collect hb.reachable hst).2
  have hdec : decodeDw s.decodeWord = decodeDw (packDw s.mode .collect s.idx b) := by
    rw [Block.decodeWord, hst, hb.inByte]
  rw [decodeDw_collect, if_neg hne] at hdec
  by_cases h1 : s.mode = .split ∧ s.idx = 22#5
  · exact .inl ⟨h1.1, h1.2, by rw [hdec, if_pos h1]⟩
  by_cases h2 : s.mode = .unified ∧ s.idx = 23#5
  · exact .inr (.inl ⟨h2.1, h2.2, by rw [hdec, if_neg h1, if_pos h2]⟩)
  refine .inr (.inr ⟨lt_of_le_of_ne hc fun he => ?_, by rw [hdec, if_neg h1, if_neg h2]⟩)
  cases hm : s.mode <;> rw [hm] at he
  · exact h1 ⟨hm, BitVec.eq_of_toNat_eq he⟩
  · exact h2 ⟨hm, BitVec.eq_of_toNat_eq he⟩

/-- Everything a step can do: the next state is a block of the same width, by one of the cases. -/
theorem step_next {s : Block tsw} {t : State} (h : step ⟨tsw, s⟩ = .next t) : ∃ b, t = ⟨tsw, b⟩ ∧ StepCase s b := by
  cases hr : s.ports.rst
  case true =>
    rw [step_of_rst hr] at h
    obtain ⟨-, h⟩ := onEdge_next.mp (show execReset s.ports.inValid ⟨tsw, s⟩ = .next t from h)
    cases h
    exact ⟨_, rfl, .reset hr⟩
  cases hv : s.ports.inValid
  case false =>
    rw [step_of_idle hr hv] at h
    obtain ⟨hs, -, h⟩ := onReachableEdge_next.mp h
    cases h
    exact ⟨_, rfl, .idleEdge hr hv hs⟩
  rw [step_of_beat_class hr hv] at h
  cases hs : s.reachable
  case false =>
    rw [exec_class_unreachable _ hs] at h
    cases h
  have hb : BeatOf s s.ports.inByte := ⟨hs, hr, hv, rfl⟩
  generalize hbyte : s.ports.inByte = b at hb
  cases hst : s.st
  · rw [Block.decodeWord, hst, hbyte, decodeDw_idle] at h
    split_ifs at h with hbs
    · obtain ⟨-, -, h⟩ := onReachableEdge_next.mp h
      cases h
      exact ⟨_, rfl, .idleStart (hbs ▸ hb) hst⟩
    · obtain ⟨-, -, h⟩ := onReachableEdge_next.mp h
      cases h
      exact ⟨_, rfl, .idleSkip b hb hst hbs⟩
  · by_cases hbs : b = syncStart
    · rw [Block.decodeWord, hst, hbyte, decodeDw_collect, if_pos hbs] at h
      obtain ⟨-, -, h⟩ := onReachableEdge_next.mp h
      cases h
      exact ⟨_, rfl, .collRestart (hbs ▸ hb) hst⟩
    · rcases decodeDw_collect_of_reachable hb hst hbs with ⟨hm, hi, hd⟩ | ⟨hm, hi, hd⟩ | ⟨hi, hd⟩ <;> rw [hd] at h
      · obtain ⟨-, -, h⟩ := onReachableEdge_next.mp h
        cases h
        exact ⟨_, rfl, .collChanSplit b hb hst hbs hm hi⟩
      · obtain ⟨-, -, h⟩ := onReachableEdge_next.mp h
        cases h
        exact ⟨_, rfl, .collChanUnified b hb hst hbs hm hi⟩
      · obtain ⟨-, -, h⟩ := onReachableEdge_next.mp h
        rw [bufWrite, if_pos (accum_entry_lt hs hst)] at h
        cases h
        exact ⟨_, rfl, .collAccum b hb hst hbs (reachable_collect hs hst).1 hi⟩
  · rw [Block.decodeWord, hst, hbyte, decodeDw_flags] at h
    split_ifs at h with hbs
    · obtain ⟨-, -, h⟩ := onReachableEdge_next.mp h
      cases h
      exact ⟨_, rfl, .flgsRestart (hbs ▸ hb) hst⟩
    · obtain ⟨-, -, h⟩ := onReachableEdge_next.mp h
      cases h
      exact ⟨_, rfl, .flgsDecode b hb hst hbs⟩
  · rw [Block.decodeWord, hst, hbyte, decodeDw_awaitStop] at h
    split_ifs at h with hbs
    · obtain ⟨-, -, h⟩ := onReachableEdge_next.mp h
      cases h
      exact ⟨_, rfl, .awstStop (hbs ▸ hb) hst⟩
    · obtain ⟨-, -, h⟩ := onReachableEdge_next.mp h
      cases h
      exact ⟨_, rfl, .awstDesync b hb hst hbs⟩

/-- The same, the next state given as a block of that width. -/
theorem step_case {s t : Block tsw} (h : step ⟨tsw, s⟩ = .next ⟨tsw, t⟩) : StepCase s t := by
  obtain ⟨b, hb, hc⟩ := step_next h
  cases hb
  exact hc

/-- The ports show the next presented values. -/
theorem ports_of_inputs {s : Block tsw} {p : Ports tsw} {ps : List (Ports tsw)} (h : s.inputs = p :: ps) : s.ports = p := by
  rw [Block.ports, h]
  rfl

/-- A presented byte, met in a reachable triple, is a beat of that byte. -/
theorem beatOf_of_inputs {s : Block tsw} {b : Byte} {t0 t1 : Timestamp tsw} {ps : List (Ports tsw)} (hs : s.reachable = true)
    (h : s.inputs = ⟨false, true, b, t0, t1⟩ :: ps) : BeatOf s b := by
  have hp := ports_of_inputs h
  exact ⟨hs, by rw [hp], by rw [hp], by rw [hp]⟩

/-- The decode word of a beat, its state and byte known. -/
theorem decodeWord_of_beat {s : Block tsw} {b : Byte} (hb : BeatOf s b) {st : St} (hst : s.st = st) :
    s.decodeWord = packDw s.mode st s.idx b := by
  rw [Block.decodeWord, hst, hb.inByte]

/-- A beat's step is its class. -/
theorem step_of_class {s : Block tsw} {b : Byte} (hb : BeatOf s b) {i : Instr} (hd : decodeDw s.decodeWord = i) :
    step ⟨tsw, s⟩ = exec i ⟨tsw, s⟩ := by
  rw [step_of_beat_class hb.rst hb.inValid, hd]

/-- What a class performs on the beat that selects it. -/
theorem onReachableEdge_of_class {s : Block tsw} {b : Byte} (hb : BeatOf s b) {i : Instr} (hd : decodeDw s.decodeWord = i)
    (k : Timestamp tsw → Timestamp tsw → Result) : onReachableEdge i s k = k s.ports.inTsStart s.ports.inTsEnd :=
  onReachableEdge_of k hb.reachable ((presents_of_beat hb.rst hb.inValid i).mpr (.inr hd.symm))

/-- A script of beats splits anywhere. -/
theorem beatsWith_append (vs ws : List Byte) (ts : Nat → Timestamp tsw × Timestamp tsw) :
    Script.beatsWith ts (vs ++ ws) = Script.beatsWith ts vs ++ Script.beatsWith (fun k => ts (k + vs.length)) ws := by
  induction vs generalizing ts with
  | nil => rfl
  | cons v vs ih =>
    simp only [List.cons_append, Script.beatsWith, ih, List.length_cons]
    congr 3

/-- The samples of a block are its own events. -/
@[simp] theorem samples_block (s : Block tsw) : (⟨tsw, s⟩ : State).samples = s.sampled.map fun e => ⟨tsw, e⟩ := rfl

/-- A run splits at any edge (R69): what comes after sees every change of what came before. -/
theorem runEvents_add (m n : Nat) (s : State) :
    runEvents (m + n) s =
      (runEvents m s).bind fun r => (runEvents n r.2).map fun q => (r.1 ++ q.1, q.2) := by
  induction m generalizing s with
  | zero => simp [runEvents]
  | succ m ih =>
    rw [Nat.succ_add, runEvents, runEvents]
    cases step s with
    | next t =>
      simp only [ih]
      cases runEvents m t with
      | none => rfl
      | some r => cases h : runEvents n r.2 <;> simp [h]
    | fault f => rfl
    | refused r => rfl

/-- One edge of a run. -/
theorem runEvents_succ {s t : State} (h : step s = .next t) (n : Nat) :
    runEvents (n + 1) s = (runEvents n t).map fun r => (t.samples ++ r.1, r.2) := by
  simp [runEvents, h]

end Sys2Proof.Machine
end

