-- ==== Sys2Proof/Tests/Slice0.lean ====
section
/-! SUPPORT. The model's own tests. Every expected value is copied from spec/95_test_vectors.md (the vector or program is named),
every word is written out from the encodings of R80 to R82; after them stand the witnesses that the hypotheses of each
obligation are met together, at the edges of their ranges. -/

namespace Sys2Proof.Tests

open Sys2Proof.Machine

/-! ## WellFormed: one ill-formed term for each check -/

theorem test_ill_formed_idleSkip : (Instr.idleSkip 0x0F#8).wellFormed = false := by decide
theorem test_ill_formed_collChanSplit : (Instr.collChanSplit 0x0F#8).wellFormed = false := by decide
theorem test_ill_formed_collChanUnified : (Instr.collChanUnified 0x0F#8).wellFormed = false := by decide
theorem test_ill_formed_collAccum : (Instr.collAccum 0x0F#8).wellFormed = false := by decide
theorem test_ill_formed_flgsDecode : (Instr.flgsDecode 0x0F#8).wellFormed = false := by decide
theorem test_ill_formed_awstDesync : (Instr.awstDesync 0x00#8).wellFormed = false := by decide

/-- A CHAN row's mode and position, and COLL_ACCUM's position, are refused elsewhere. -/
theorem test_not_admitted :
    (Instr.collChanSplit 0x57#8).admits .unified 22#5 = false ∧ (Instr.collChanSplit 0x57#8).admits .split 21#5 = false ∧
    (Instr.collChanUnified 0x0C#8).admits .split 23#5 = false ∧ (Instr.collChanUnified 0x0C#8).admits .unified 22#5 = false ∧
    (Instr.collAccum 0x11#8).admits .split 22#5 = false ∧ (Instr.collAccum 0x11#8).admits .unified 23#5 = false ∧
    (Instr.collAccum 0x11#8).admits .unified 22#5 = true := by decide

/-- The edges of R87's list. -/
theorem test_reachable_triples :
    reachableTriple .split .idle 0#5 = true ∧ reachableTriple .split .idle 1#5 = false ∧
    reachableTriple .split .collect 0#5 = false ∧ reachableTriple .split .collect 22#5 = true ∧
    reachableTriple .split .collect 23#5 = false ∧ reachableTriple .unified .collect 23#5 = true ∧
    reachableTriple .unified .collect 24#5 = false ∧ reachableTriple .split .flags 23#5 = true ∧
    reachableTriple .unified .flags 23#5 = false ∧ reachableTriple .split .awaitStop 24#5 = true ∧
    reachableTriple .unified .awaitStop 23#5 = false := by decide

/-! ## Decoding: a word for every constructor, m, s, i, b written out (R80; the words of V26) -/

theorem test_decode_idleStart : decodeTableWord 16 0b1_00_00000_00001111 = some .idleStart := by decide
theorem test_decode_idleSkip : decodeTableWord 16 0b0_00_00000_00001110 = some (.idleSkip 0x0E#8) := by decide
/-- V26: restart wins over CHAN. -/
theorem test_decode_collRestart : decodeTableWord 16 0b0_01_10110_00001111 = some .collRestart := by decide
theorem test_decode_collChanSplit : decodeTableWord 16 0b0_01_10110_01010111 = some (.collChanSplit 0x57#8) := by decide
theorem test_decode_collChanUnified : decodeTableWord 16 0b1_01_10111_00001100 = some (.collChanUnified 0x0C#8) := by decide
/-- V26: in unified mode idx 22 is not the last. -/
theorem test_decode_collAccum : decodeTableWord 16 0b1_01_10110_01010111 = some (.collAccum 0x57#8) := by decide
theorem test_decode_flgsRestart : decodeTableWord 16 0b0_10_10111_00001111 = some .flgsRestart := by decide
theorem test_decode_flgsDecode : decodeTableWord 16 0b0_10_10111_11111111 = some (.flgsDecode 0xFF#8) := by decide
theorem test_decode_awstStop : decodeTableWord 16 0b1_11_11000_00000000 = some .awstStop := by decide
/-- V26: consumed, no START. -/
theorem test_decode_awstDesync : decodeTableWord 16 0b0_11_11000_00001111 = some (.awstDesync 0x0F#8) := by decide
theorem test_decode_reset :
    decodeTableWord 8 0b1_0 = some (.reset false) ∧ decodeTableWord 8 0b1_1 = some (.reset true) := by decide
theorem test_decode_beat : decodeTableWord 8 0b0_1 = some .beat := by decide
theorem test_decode_idleEdge : decodeTableWord 8 0b0_0 = some .idleEdge := by decide

/-- A number that is no word is rejected by name. -/
theorem test_reject_by_name :
    readTableWord 24 0 = .error (.noSuchFormat 24) ∧ readTableWord 0 0 = .error (.noSuchFormat 0) ∧
    readTableWord 8 0b100 = .error (.bitAboveFormat 0b100) ∧ readTableWord 16 0x10000 = .error (.bitAboveFormat 0x10000) :=
  ⟨rfl, rfl, rfl, rfl⟩

theorem test_encode :
    encode .split 22#5 (.collChanSplit 0x57#8) = .dw 0x3657#16 ∧ encode .unified 22#5 (.collAccum 0x57#8) = .dw 0xB657#16 ∧
    encode .split 0#5 (.reset true) = .cw 0b11#2 := by decide

/-! ## Small states -/

/-- A block of mode `m` with 64-bit timestamps (R7) at `(st, idx)` with that buffer and start timestamp, the edge's values
on the ports. -/
def stateAt (m : Mode) (st : St) (idx : BitVec 5) (buf : Memory) (fs : Timestamp 64) (ps : List (Ports 64)) : Block 64 :=
  { Block.reset m 64 with st := st, idx := idx, buf := buf, fs := fs, inputs := ps }

/-- The next state, where there is one, as the block of 64-bit timestamps it is (another width would give nothing). -/
def next? (r : Result) : Option (Block 64) :=
  match r with
  | .next t => if h : t.tsw = 64 then some (h ▸ t.block) else none
  | .fault _ => none
  | .refused _ => none

/-- What the trace tables of the spec list of a state: the event kind and code, its timestamps, and the pair. -/
structure Row where
  kind : EvKind
  err : EvErr
  tsStart : Nat
  tsEnd : Nat
  st : St
  idx : BitVec 5
deriving DecidableEq, Repr

/-- The row of a state. -/
def row (s : Block 64) : Row := ⟨s.evKind, s.evErr, s.evTsStart.toNat, s.evTsEnd.toNat, s.st, s.idx⟩

/-- The buffer holding these bytes from entry 0 on. -/
def filled (vs : List Byte) : Memory := (vs.zipIdx).foldl (fun m p => m.put p.2 p.1) []

/-- P_R of spec/95. -/
def payloadR : AnalogBytes :=
  #v[0xAC#8, 0x00#8, 0xDF#8, 0xC4#8, 0x01#8, 0xF0#8, 0x7F#8, 0x00#8, 0x06#8, 0x00#8, 0x7D#8,
    0xF4#8, 0xE1#8, 0x2E#8, 0x19#8, 0x90#8, 0xC1#8, 0x12#8, 0xC8#8, 0x60#8, 0x89#8, 0x57#8]

/-- R of spec/95. -/
def channelsR : Channels :=
  #v[172#11, 992#11, 1811#11, 0#11, 2047#11, 1024#11, 1#11, 1000#11,
    500#11, 1500#11, 100#11, 200#11, 300#11, 400#11, 600#11, 700#11]

/-! ## One step of each instruction -/

/-- P1, beat 2. -/
theorem test_idleStart :
    (next? (exec .idleStart ⟨64, stateAt .split .idle 0#5 [] 0 (Script.beat 0x0F#8 4 5)⟩)).map row =
      some ⟨.start, .none, 4, 5, .collect, 1#5⟩ := by decide

/-- P1, beat 1. -/
theorem test_idleSkip :
    (next? (exec (.idleSkip 0xFF#8) ⟨64, stateAt .split .idle 0#5 [] 0 (Script.beat 0xFF#8 2 3)⟩)).map row =
      some ⟨.none, .none, 2, 3, .idle, 0#5⟩ := by decide

/-- V5, beat 4: three bytes are dropped. -/
theorem test_collRestart :
    (next? (exec .collRestart ⟨64, stateAt .split .collect 4#5 (filled [1#8, 2#8, 3#8]) 2 (Script.beat 0x0F#8 8 9)⟩)).map
      (fun t => (row t, t.buf, t.fs)) = some (⟨.start, .prematureStart, 8, 9, .collect, 1#5⟩, [], 0) := by decide

/-- V32: in place of the 22nd analog byte. -/
theorem test_collRestart_at_cap :
    (next? (exec .collRestart ⟨64, stateAt .split .collect 22#5 (filled (List.replicate 21 0x11#8)) 2
      (Script.beat 0x0F#8 44 45)⟩)).map (fun t => (row t, t.chRaw)) =
      some (⟨.start, .prematureStart, 44, 45, .collect, 1#5⟩, Vector.replicate 16 0#11) := by decide

/-- P1, beat 3. -/
theorem test_collAccum :
    (next? (exec (.collAccum 0xAC#8) ⟨64, stateAt .split .collect 1#5 [] 0 (Script.beat 0xAC#8 6 7)⟩)).map
      (fun t => (row t, t.buf, t.fs)) = some (⟨.none, .none, 6, 7, .collect, 2#5⟩, [(0, 0xAC#8)], 6) := by decide

/-- V33, beat 22: in unified mode the 22nd byte accumulates. -/
theorem test_collAccum_unified_22 :
    (next? (exec (.collAccum 0x11#8) ⟨64, stateAt .unified .collect 22#5 (filled (List.replicate 21 0x11#8)) 2
      (Script.beat 0x11#8 44 45)⟩)).map (fun t => (row t, t.buf.get 21, t.fs)) =
      some (⟨.none, .none, 44, 45, .collect, 23#5⟩, 0x11#8, 2) := by decide

/-- P1, beat 24. -/
theorem test_collChanSplit :
    (next? (exec (.collChanSplit 0x57#8) ⟨64, stateAt .split .collect 22#5 (filled (payloadR.toList.take 21)) 6
      (Script.beat 0x57#8 48 49)⟩)).map (fun t => (row t, t.chRaw)) =
      some (⟨.chan, .none, 6, 49, .flags, 23#5⟩, channelsR) := by decide

/-- P2, beat 23: the 0x0C sits in entry 22 and is not decoded. -/
theorem test_collChanUnified :
    (next? (exec (.collChanUnified 0x0C#8) ⟨64, stateAt .unified .collect 23#5 (filled payloadR.toList) 2
      (Script.beat 0x0C#8 46 47)⟩)).map (fun t => (row t, t.chRaw, t.buf.get 22, t.flagsByte)) =
      some (⟨.chan, .none, 2, 47, .awaitStop, 24#5⟩, channelsR, 0x0C#8, 0x00#8) := by decide

/-- P4, beat 23. -/
theorem test_flgsRestart :
    (next? (exec .flgsRestart ⟨64, stateAt .split .flags 23#5 [] 2 (Script.beat 0x0F#8 46 47)⟩)).map
      (fun t => (row t, t.flagsByte, t.fs)) = some (⟨.start, .prematureStart, 46, 47, .collect, 1#5⟩, 0x00#8, 0) := by
  decide

/-- P1, beat 25 and V4. -/
theorem test_flgsDecode :
    (next? (exec (.flgsDecode 0x0B#8) ⟨64, stateAt .split .flags 23#5 [] 6 (Script.beat 0x0B#8 50 51)⟩)).map
      (fun t => (row t, t.flagsByte, t.outputPorts.flagFailsafe, t.outputPorts.flagFrameLost, t.outputPorts.flagCh18,
        t.outputPorts.flagCh17)) =
      some (⟨.flag, .none, 50, 51, .awaitStop, 24#5⟩, 0x0B#8, true, false, true, true) := by decide

/-- V24, row 0xF5: bits 4 to 7 reach flags_byte and no wire. -/
theorem test_flgsDecode_upper_bits :
    (next? (exec (.flgsDecode 0xF5#8) ⟨64, stateAt .split .flags 23#5 [] 6 (Script.beat 0xF5#8 50 51)⟩)).map
      (fun t => (t.flagsByte, t.outputPorts.flagFailsafe, t.outputPorts.flagFrameLost, t.outputPorts.flagCh18,
        t.outputPorts.flagCh17)) = some (0xF5#8, false, true, false, true) := by decide

/-- P1, beat 26: the frame's bytes are cleared. -/
theorem test_awstStop :
    (next? (exec .awstStop ⟨64, stateAt .split .awaitStop 24#5 (filled payloadR.toList) 6 (Script.beat 0x00#8 52 53)⟩)).map
      (fun t => (row t, t.buf, t.fs)) = some (⟨.stop, .none, 52, 53, .idle, 0#5⟩, [], 0) := by decide

/-- P3, beat 28. -/
theorem test_awstDesync :
    (next? (exec (.awstDesync 0x55#8) ⟨64, stateAt .split .awaitStop 24#5 [] 10 (Script.beat 0x55#8 56 57)⟩)).map row =
      some ⟨.desync, .badTerminator, 56, 57, .idle, 0#5⟩ := by decide

/-- V35: a start-sync byte there is consumed and opens no frame. -/
theorem test_awstDesync_start_sync :
    (next? (step ⟨64, stateAt .split .awaitStop 24#5 [] 2 (Script.beat 0x0F#8 48 49)⟩)).map row =
      some ⟨.desync, .badTerminator, 48, 49, .idle, 0#5⟩ := by decide

/-- V39: a reset edge mid-frame drops it silently. -/
theorem test_reset_mid_frame :
    next? (exec (.reset false) ⟨64, { stateAt .split .collect 2#5 [(0, 0x11#8)] 2 Script.reset with evTsStart := 2, evTsEnd := 3 }⟩) =
      some (Block.reset .split 64) := by decide

/-- V40: reset wins over a beat, and the byte is not remembered. -/
theorem test_reset_over_beat :
    next? (step ⟨64, stateAt .split .idle 0#5 [] 0 [⟨true, true, 0x0F#8, 0, 0⟩]⟩) = some (Block.reset .split 64) := by decide

/-- V41. -/
theorem test_idleEdge :
    next? (exec .idleEdge ⟨64, { stateAt .split .collect 2#5 [(0, 0x11#8)] 2 (Script.idle 1) with evTsStart := 2, evTsEnd := 3 }⟩) =
      some { stateAt .split .collect 2#5 [(0, 0x11#8)] 2 [] with evTsStart := 2, evTsEnd := 3 } := by decide

/-- P5, edge 31: after a CHAN record the kind is cleared and its timestamps and channels stay. -/
theorem test_idleEdge_after_chan :
    (next? (step ⟨64, { stateAt .split .flags 23#5 [] 22 (Script.idle 1) with
      evValid := true, evKind := .chan, evTsStart := 22, evTsEnd := 65, chRaw := channelsR }⟩)).map
      (fun t => (row t, t.evValid, t.chRaw)) = some (⟨.none, .none, 22, 65, .flags, 23#5⟩, false, channelsR) := by decide

/-- P1, beat 3, as BEAT. -/
theorem test_beat :
    (next? (exec .beat ⟨64, stateAt .split .collect 1#5 [] 0 (Script.beat 0xAC#8 6 7)⟩)).map row =
      some ⟨.none, .none, 6, 7, .collect, 2#5⟩ := by decide

/-- A table word presented right after reset is the instruction the next step runs, also where its free fields name no
reachable position (0x2000 and 0xC00F; log entry 5). -/
theorem test_withFetchWord :
    (next? (step (State.reset.withFetchWord 16 0x2000))).map row = some ⟨.none, .none, 0, 0, .collect, 2#5⟩ ∧
    (next? (step (State.reset.withFetchWord 16 0xB70C))).map row = some ⟨.chan, .none, 0, 0, .awaitStop, 24#5⟩ ∧
    (next? (step (State.reset.withFetchWord 16 0xC00F))).map row =
      some ⟨.start, .prematureStart, 0, 0, .collect, 1#5⟩ := by decide

/-! ## The bit-slicer and the flag labels -/

/-- V1. -/
theorem test_unpack_reference : unpack payloadR = channelsR ∧ pack channelsR = payloadR := by decide
/-- V10. -/
theorem test_unpack_first_byte :
    unpack ((Vector.replicate 22 0#8).set 0 0x0F#8) = (Vector.replicate 16 0#11).set 0 15#11 := by decide
/-- V14: channel 5 spans three bytes. -/
theorem test_pack_channel_5 :
    pack ((Vector.replicate 16 0#11).set 5 2047#11) =
      (((Vector.replicate 22 0#8).set 6 0x80#8).set 7 0xFF#8).set 8 0x03#8 := by decide
/-- V21: the lowest bit of the last channel. -/
theorem test_pack_channel_15 :
    pack ((Vector.replicate 16 0#11).set 15 1#11) = (Vector.replicate 22 0#8).set 20 0x20#8 := by decide
/-- V18. -/
theorem test_unpack_counting_bytes :
    unpack (Vector.ofFn fun k : Fin 22 => BitVec.ofNat 8 (k.val + 1)) =
      #v[513#11, 96#11, 1040#11, 770#11, 112#11, 528#11, 642#11, 88#11, 1292#11, 449#11, 60#11, 136#11, 289#11, 38#11,
        1349#11, 176#11] := by decide
/-- V20. -/
theorem test_channel_bus : channelBus channelsR = 0x578960C812C190192EE1F47D0006007FF001C4DF00AC#176 := by decide

/-- R159 and V22. -/
theorem test_scale :
    [0, 1, 2, 3, 172, 992, 1024, 1638, 1639, 1640, 1811, 2045, 2046, 2047].map (fun r => (scale (BitVec.ofNat 11 r)).toNat) =
      [881, 881, 882, 882, 988, 1500, 1520, 1904, 1905, 1905, 2012, 2158, 2159, 2159] := by decide

/-- The scaled outputs of R (spec/95, reference list). -/
theorem test_scaled_reference :
    ({ Block.reset .split 64 with chRaw := channelsR } : Block 64).outputPorts.chScaled =
      #v[988#12, 1500#12, 2012#12, 881#12, 2159#12, 1520#12, 881#12, 1505#12, 1193#12, 1818#12, 943#12, 1005#12, 1068#12,
        1130#12, 1255#12, 1318#12] := by decide

/-- V24. -/
theorem test_labels :
    labels 0x0E#8 = [.failsafeActive, .frameLost, .channel18Active] ∧ labels 0xF5#8 = [.frameLost, .channel17Active] ∧
    labels 0x04#8 = [.frameLost] := by decide

/-- R113 on V26's words: 0x0F where the stop byte is due is no start. -/
theorem test_boundary_signals :
    startDetect 0x570F#16 = true ∧ startDetect 0x780F#16 = false ∧ badTerm 0x780F#16 = true ∧ stopDetect 0xF800#16 = true ∧
    stopDetect 0x0000#16 = false := by decide

/-- The beat script (R91): `beats [0x0F, 0x01] @ 8`, and a frame is 25 beats. -/
theorem test_script :
    (Script.beats [0x0F#8, 0x01#8] 8 : List (Ports 64)) = [⟨false, true, 0x0F#8, 8, 9⟩, ⟨false, true, 0x01#8, 10, 11⟩] ∧
    (Script.frame payloadR 0x0B#8 4 : List (Ports 64)).length = 25 ∧
    (Script.frame payloadR 0x0B#8 4 : List (Ports 64))[23]? = some ⟨false, true, 0x0B#8, 50, 51⟩ := by decide

/-- The reset outputs: every scaled channel 881 (V23). -/
theorem test_reset_outputs :
    State.reset.block.outputPorts.chScaled = Vector.replicate 16 881#12 ∧ State.reset.samples = [] := by decide

/-! ## Witnesses: states and operands that meet the hypotheses of each obligation together -/

/-- A beat of `b` at `(st, idx)` in mode `m`, the buffer empty. -/
def beatAt (m : Mode) (st : St) (idx : BitVec 5) (b : Byte) : Block 64 := stateAt m st idx [] 7 (Script.beat b 4 5)

/-- The step answers the next state `nextOf s`. -/
def nextOf (s : Block 64) : Block 64 := (next? (step ⟨64, s⟩)).getD s

/-- What `exec i s` answers, where it answers a next state. -/
def execOf (i : Instr) (s : Block 64) : Block 64 := (next? (exec i ⟨64, s⟩)).getD s

theorem witness_StepRunsTheEdgePresented :
    (stateAt .split .idle 0#5 [] 0 Script.reset).ports.rst = true ∧
    ((beatAt .unified .collect 23#5 0x0C#8).ports.rst = false ∧ (beatAt .unified .collect 23#5 0x0C#8).ports.inValid = true) ∧
    (State.reset.block.ports.rst = false ∧ State.reset.block.ports.inValid = false) := by decide

/-- With in_valid 0 and with in_valid 1, the second in an unreachable triple: a reset edge needs no reachable state. -/
theorem witness_ResetEdgeClearsEveryRegister :
    ((stateAt .unified .collect 5#5 [(0, 1#8)] 3 Script.reset).ports.rst = true ∧
      (stateAt .unified .collect 5#5 [(0, 1#8)] 3 Script.reset).ports.inValid = false) ∧
    ((stateAt .split .collect 30#5 [] 3 [⟨true, true, 0x0F#8, 0, 0⟩]).ports.rst = true ∧
      (stateAt .split .collect 30#5 [] 3 [⟨true, true, 0x0F#8, 0, 0⟩]).ports.inValid = true) := by decide

theorem witness_IdleEdgeHoldsTheCore :
    (stateAt .split .flags 23#5 [] 2 (Script.idle 1)).reachable = true ∧
    (stateAt .split .flags 23#5 [] 2 (Script.idle 1)).ports.rst = false ∧
    (stateAt .split .flags 23#5 [] 2 (Script.idle 1)).ports.inValid = false := by decide

/-- A beat at the last payload position of unified mode. -/
theorem witness_BeatPerformsItsClass : BeatOf (beatAt .unified .collect 23#5 0xFF#8) 0xFF#8 := ⟨rfl, rfl, rfl, rfl⟩

theorem witness_ControlWordRows :
    0b11#2 &&& 0b10#2 = 0b10#2 ∧ 0b10#2 &&& 0b10#2 = 0b10#2 ∧ 0b01#2 &&& 0b11#2 = 0b01#2 ∧ 0b00#2 &&& 0b11#2 = 0b00#2 ∧
    ((⟨true, true, 0x0F#8, 4, 5⟩ : Ports 64).rst = true ∧ (⟨false, false, 0x0F#8, 4, 5⟩ : Ports 64).inValid = false) := by decide

theorem witness_DecodeOfEncode :
    ((Instr.collChanSplit 0xFF#8).wellFormed = true ∧ (Instr.collChanSplit 0xFF#8).admits .split 22#5 = true) ∧
    ((Instr.collChanUnified 0x00#8).wellFormed = true ∧ (Instr.collChanUnified 0x00#8).admits .unified 23#5 = true) ∧
    ((Instr.collAccum 0x0E#8).wellFormed = true ∧ (Instr.collAccum 0x0E#8).admits .split 23#5 = true) ∧
    ((Instr.awstDesync 0x0F#8).wellFormed = true ∧ (Instr.awstDesync 0x0F#8).admits .unified 31#5 = true) ∧
    encode .unified 31#5 (.awstDesync 0x0F#8) = .dw 0xFF0F#16 := by decide

/-- One unreachable triple beside each edge of R87's list. -/
theorem witness_UnreachableTriplesAreRefused :
    ((beatAt .split .idle 1#5 0x0F#8).reachable = false ∧ (beatAt .split .idle 1#5 0x0F#8).ports.rst = false ∧
      (beatAt .split .idle 1#5 0x0F#8).ports.inValid = true) ∧
    (beatAt .split .collect 0#5 0x11#8).reachable = false ∧ (beatAt .split .collect 23#5 0x11#8).reachable = false ∧
    (beatAt .unified .collect 24#5 0x11#8).reachable = false ∧ (beatAt .unified .flags 23#5 0x11#8).reachable = false ∧
    (beatAt .split .flags 22#5 0x11#8).reachable = false ∧ (beatAt .unified .awaitStop 25#5 0x00#8).reachable = false := by
  decide

theorem witness_OtherInstructionsAreRefused :
    ((beatAt .split .collect 23#5 0x11#8).reachable = false ∧ (∀ v, Instr.idleEdge ≠ .reset v)) ∧
    ((beatAt .split .collect 22#5 0x11#8).reachable = true ∧
      (beatAt .split .collect 22#5 0x11#8).presents (.collAccum 0x11#8) = false) := by decide

/-- In IDLE, COLLECT, FLAGS and AWAIT_STOP, a byte that matches no sync rule there. -/
theorem witness_EveryByteIsLegal :
    (BeatOf (beatAt .split .idle 0#5 0x00#8) 0x00#8 ∧ startDetect (beatAt .split .idle 0#5 0x00#8).decodeWord = false ∧
      stopDetect (beatAt .split .idle 0#5 0x00#8).decodeWord = false) ∧
    (BeatOf (beatAt .unified .collect 22#5 0x00#8) 0x00#8 ∧
      startDetect (beatAt .unified .collect 22#5 0x00#8).decodeWord = false ∧
      stopDetect (beatAt .unified .collect 22#5 0x00#8).decodeWord = false) ∧
    (BeatOf (beatAt .split .flags 23#5 0x00#8) 0x00#8 ∧
      startDetect (beatAt .split .flags 23#5 0x00#8).decodeWord = false ∧
      stopDetect (beatAt .split .flags 23#5 0x00#8).decodeWord = false) ∧
    (BeatOf (beatAt .split .awaitStop 24#5 0x0F#8) 0x0F#8 ∧
      startDetect (beatAt .split .awaitStop 24#5 0x0F#8).decodeWord = false ∧
      stopDetect (beatAt .split .awaitStop 24#5 0x0F#8).decodeWord = false) :=
  ⟨⟨⟨rfl, rfl, rfl, rfl⟩, by decide, by decide⟩, ⟨⟨rfl, rfl, rfl, rfl⟩, by decide, by decide⟩,
    ⟨⟨rfl, rfl, rfl, rfl⟩, by decide, by decide⟩, ⟨⟨rfl, rfl, rfl, rfl⟩, by decide, by decide⟩⟩

theorem witness_NothingFaultsOrStops : (beatAt .split .flags 23#5 0x0F#8).reachable = true := by decide

theorem witness_IdleStartOpensAFrame :
    BeatOf (beatAt .split .idle 0#5 0x0F#8) 0x0F#8 ∧ (beatAt .split .idle 0#5 0x0F#8).st = .idle :=
  ⟨⟨rfl, rfl, rfl, rfl⟩, rfl⟩

theorem witness_IdleSkipChangesNoCoreRegister :
    BeatOf (beatAt .unified .idle 0#5 0x0E#8) 0x0E#8 ∧ (beatAt .unified .idle 0#5 0x0E#8).st = .idle ∧ 0x0E#8 ≠ 0x0F#8 :=
  ⟨⟨rfl, rfl, rfl, rfl⟩, rfl, by decide⟩

/-- At idx 1 and at idx CAP of both modes. -/
theorem witness_CollRestartDropsTheFrame :
    (BeatOf (beatAt .split .collect 1#5 0x0F#8) 0x0F#8 ∧ (beatAt .split .collect 1#5 0x0F#8).st = .collect) ∧
    (BeatOf (beatAt .split .collect 22#5 0x0F#8) 0x0F#8 ∧ (beatAt .split .collect 22#5 0x0F#8).st = .collect) ∧
    (BeatOf (beatAt .unified .collect 23#5 0x0F#8) 0x0F#8 ∧ (beatAt .unified .collect 23#5 0x0F#8).st = .collect) :=
  ⟨⟨⟨rfl, rfl, rfl, rfl⟩, rfl⟩, ⟨⟨rfl, rfl, rfl, rfl⟩, rfl⟩, ⟨⟨rfl, rfl, rfl, rfl⟩, rfl⟩⟩

/-- At idx 1, at idx 21 in split mode and at idx 22 in unified mode. -/
theorem witness_CollAccumStoresOneByte :
    (BeatOf (beatAt .split .collect 1#5 0x00#8) 0x00#8 ∧ (beatAt .split .collect 1#5 0x00#8).st = .collect ∧
      (beatAt .split .collect 1#5 0x00#8).idx.toNat + 1 ≤ cap .split ∧ 0x00#8 ≠ 0x0F#8) ∧
    (BeatOf (beatAt .split .collect 21#5 0xFF#8) 0xFF#8 ∧ (beatAt .split .collect 21#5 0xFF#8).idx.toNat + 1 ≤ cap .split) ∧
    (BeatOf (beatAt .unified .collect 22#5 0x57#8) 0x57#8 ∧
      (beatAt .unified .collect 22#5 0x57#8).idx.toNat + 1 ≤ cap .unified) :=
  ⟨⟨⟨rfl, rfl, rfl, rfl⟩, rfl, by decide, by decide⟩, ⟨⟨rfl, rfl, rfl, rfl⟩, by decide⟩, ⟨⟨rfl, rfl, rfl, rfl⟩, by decide⟩⟩

theorem witness_CollChanSplitEmitsTheChannels :
    BeatOf (beatAt .split .collect 22#5 0x57#8) 0x57#8 ∧ (beatAt .split .collect 22#5 0x57#8).mode = .split ∧
    (beatAt .split .collect 22#5 0x57#8).st = .collect ∧ (beatAt .split .collect 22#5 0x57#8).idx = 22#5 ∧
    0x57#8 ≠ 0x0F#8 := ⟨⟨rfl, rfl, rfl, rfl⟩, rfl, rfl, rfl, by decide⟩

theorem witness_CollChanUnifiedEmitsTheChannels :
    BeatOf (beatAt .unified .collect 23#5 0x0C#8) 0x0C#8 ∧ (beatAt .unified .collect 23#5 0x0C#8).mode = .unified ∧
    (beatAt .unified .collect 23#5 0x0C#8).st = .collect ∧ (beatAt .unified .collect 23#5 0x0C#8).idx = 23#5 ∧
    0x0C#8 ≠ 0x0F#8 := ⟨⟨rfl, rfl, rfl, rfl⟩, rfl, rfl, rfl, by decide⟩

theorem witness_FlgsRestartDropsTheFrame :
    BeatOf (beatAt .split .flags 23#5 0x0F#8) 0x0F#8 ∧ (beatAt .split .flags 23#5 0x0F#8).st = .flags :=
  ⟨⟨rfl, rfl, rfl, rfl⟩, rfl⟩

theorem witness_FlgsDecodeLatchesTheFlags :
    BeatOf (beatAt .split .flags 23#5 0x00#8) 0x00#8 ∧ (beatAt .split .flags 23#5 0x00#8).st = .flags ∧ 0x00#8 ≠ 0x0F#8 :=
  ⟨⟨rfl, rfl, rfl, rfl⟩, rfl, by decide⟩

/-- In both modes. -/
theorem witness_AwstStopClosesTheFrame :
    (BeatOf (beatAt .split .awaitStop 24#5 0x00#8) 0x00#8 ∧ (beatAt .split .awaitStop 24#5 0x00#8).st = .awaitStop) ∧
    (BeatOf (beatAt .unified .awaitStop 24#5 0x00#8) 0x00#8 ∧ (beatAt .unified .awaitStop 24#5 0x00#8).st = .awaitStop) :=
  ⟨⟨⟨rfl, rfl, rfl, rfl⟩, rfl⟩, ⟨⟨rfl, rfl, rfl, rfl⟩, rfl⟩⟩

/-- The start-sync byte, and the least byte that is no stop byte. -/
theorem witness_AwstDesyncDropsBackToIdle :
    (BeatOf (beatAt .split .awaitStop 24#5 0x0F#8) 0x0F#8 ∧ (beatAt .split .awaitStop 24#5 0x0F#8).st = .awaitStop ∧
      0x0F#8 ≠ 0x00#8) ∧
    (BeatOf (beatAt .unified .awaitStop 24#5 0x01#8) 0x01#8 ∧ (beatAt .unified .awaitStop 24#5 0x01#8).st = .awaitStop ∧
      0x01#8 ≠ 0x00#8) :=
  ⟨⟨⟨rfl, rfl, rfl, rfl⟩, rfl, by decide⟩, ⟨⟨rfl, rfl, rfl, rfl⟩, rfl, by decide⟩⟩

/-- At CAP - 1 and at CAP in both modes (the clauses of COLLECT meet there). -/
theorem witness_EveryBeatAdvancesThePair :
    (BeatOf (beatAt .split .collect 21#5 0x11#8) 0x11#8 ∧
      step ⟨64, beatAt .split .collect 21#5 0x11#8⟩ = .next ⟨64, nextOf (beatAt .split .collect 21#5 0x11#8)⟩) ∧
    (BeatOf (beatAt .split .collect 22#5 0x11#8) 0x11#8 ∧
      step ⟨64, beatAt .split .collect 22#5 0x11#8⟩ = .next ⟨64, nextOf (beatAt .split .collect 22#5 0x11#8)⟩) ∧
    (BeatOf (beatAt .unified .collect 22#5 0x11#8) 0x11#8 ∧
      step ⟨64, beatAt .unified .collect 22#5 0x11#8⟩ = .next ⟨64, nextOf (beatAt .unified .collect 22#5 0x11#8)⟩) ∧
    (BeatOf (beatAt .unified .collect 23#5 0x11#8) 0x11#8 ∧
      step ⟨64, beatAt .unified .collect 23#5 0x11#8⟩ = .next ⟨64, nextOf (beatAt .unified .collect 23#5 0x11#8)⟩) :=
  ⟨⟨⟨rfl, rfl, rfl, rfl⟩, rfl⟩, ⟨⟨rfl, rfl, rfl, rfl⟩, rfl⟩, ⟨⟨rfl, rfl, rfl, rfl⟩, rfl⟩, ⟨⟨rfl, rfl, rfl, rfl⟩, rfl⟩⟩

/-- A beat that changes ch_raw, one that changes flags_byte, and an idle edge. -/
theorem witness_OnlyTheNamedClassesWrite :
    (step ⟨64, beatAt .split .collect 22#5 0xFF#8⟩ = .next ⟨64, nextOf (beatAt .split .collect 22#5 0xFF#8)⟩ ∧
      (beatAt .split .collect 22#5 0xFF#8).ports.rst = false ∧ (beatAt .split .collect 22#5 0xFF#8).ports.inValid = true ∧
      (nextOf (beatAt .split .collect 22#5 0xFF#8)).chRaw ≠ (beatAt .split .collect 22#5 0xFF#8).chRaw) ∧
    (step ⟨64, beatAt .split .flags 23#5 0x08#8⟩ = .next ⟨64, nextOf (beatAt .split .flags 23#5 0x08#8)⟩ ∧
      (beatAt .split .flags 23#5 0x08#8).ports.rst = false ∧
      (nextOf (beatAt .split .flags 23#5 0x08#8)).flagsByte ≠ (beatAt .split .flags 23#5 0x08#8).flagsByte) ∧
    (step State.reset = .next ⟨64, nextOf (Block.reset .split 64)⟩ ∧ State.reset.block.ports.rst = false ∧
      State.reset.block.ports.inValid = false) :=
  ⟨⟨rfl, rfl, rfl, by decide⟩, ⟨rfl, rfl, by decide⟩, ⟨rfl, rfl, rfl⟩⟩

/-- The three storing classes at their boundary entries 0, 21 and 22; the three that leave the buffer alone. -/
theorem witness_BufferWritesGoToTheExpectedEntry :
    (Memory.wf (beatAt .split .collect 1#5 0x11#8).buf ∧ exec (.collAccum 0x11#8) ⟨64, beatAt .split .collect 1#5 0x11#8⟩ =
      .next ⟨64, execOf (.collAccum 0x11#8) (beatAt .split .collect 1#5 0x11#8)⟩) ∧
    exec (.collChanSplit 0x11#8) ⟨64, beatAt .split .collect 22#5 0x11#8⟩ =
      .next ⟨64, execOf (.collChanSplit 0x11#8) (beatAt .split .collect 22#5 0x11#8)⟩ ∧
    exec (.collChanUnified 0x11#8) ⟨64, beatAt .unified .collect 23#5 0x11#8⟩ =
      .next ⟨64, execOf (.collChanUnified 0x11#8) (beatAt .unified .collect 23#5 0x11#8)⟩ ∧
    exec (.idleSkip 0x11#8) ⟨64, beatAt .split .idle 0#5 0x11#8⟩ =
      .next ⟨64, execOf (.idleSkip 0x11#8) (beatAt .split .idle 0#5 0x11#8)⟩ ∧
    exec (.flgsDecode 0x11#8) ⟨64, beatAt .split .flags 23#5 0x11#8⟩ =
      .next ⟨64, execOf (.flgsDecode 0x11#8) (beatAt .split .flags 23#5 0x11#8)⟩ ∧
    exec .idleEdge State.reset = .next ⟨64, execOf .idleEdge (Block.reset .split 64)⟩ :=
  ⟨⟨by decide, rfl⟩, rfl, rfl, rfl, rfl, rfl⟩

theorem witness_BufferClearedAtFrameBoundaries :
    exec (.reset true) ⟨64, stateAt .split .collect 2#5 [(0, 1#8)] 2 [⟨true, true, 0x0F#8, 0, 0⟩]⟩ =
      .next ⟨64, execOf (.reset true) (stateAt .split .collect 2#5 [(0, 1#8)] 2 [⟨true, true, 0x0F#8, 0, 0⟩])⟩ ∧
    exec .idleStart ⟨64, beatAt .split .idle 0#5 0x0F#8⟩ = .next ⟨64, execOf .idleStart (beatAt .split .idle 0#5 0x0F#8)⟩ ∧
    exec .collRestart ⟨64, stateAt .split .collect 2#5 [(0, 1#8)] 2 (Script.beat 0x0F#8 4 5)⟩ =
      .next ⟨64, execOf .collRestart (stateAt .split .collect 2#5 [(0, 1#8)] 2 (Script.beat 0x0F#8 4 5))⟩ ∧
    exec .flgsRestart ⟨64, beatAt .split .flags 23#5 0x0F#8⟩ = .next ⟨64, execOf .flgsRestart (beatAt .split .flags 23#5 0x0F#8)⟩ ∧
    exec .awstStop ⟨64, stateAt .unified .awaitStop 24#5 [(22, 1#8)] 2 (Script.beat 0x00#8 4 5)⟩ =
      .next ⟨64, execOf .awstStop (stateAt .unified .awaitStop 24#5 [(22, 1#8)] 2 (Script.beat 0x00#8 4 5))⟩ ∧
    exec (.awstDesync 0x55#8) ⟨64, beatAt .split .awaitStop 24#5 0x55#8⟩ =
      .next ⟨64, execOf (.awstDesync 0x55#8) (beatAt .split .awaitStop 24#5 0x55#8)⟩ := ⟨rfl, rfl, rfl, rfl, rfl, rfl⟩

/-- Two states that differ in entry 22, and a step from the first. -/
theorem witness_EntryTwentyTwoIsNeverRead :
    SameButEntry22 (stateAt .unified .awaitStop 24#5 [(0, 1#8), (22, 0xF3#8)] 2 (Script.beat 0x00#8 4 5))
      (stateAt .unified .awaitStop 24#5 [(0, 1#8)] 2 (Script.beat 0x00#8 4 5)) ∧
    step ⟨64, stateAt .unified .awaitStop 24#5 [(0, 1#8), (22, 0xF3#8)] 2 (Script.beat 0x00#8 4 5)⟩ =
      .next ⟨64, nextOf (stateAt .unified .awaitStop 24#5 [(0, 1#8), (22, 0xF3#8)] 2 (Script.beat 0x00#8 4 5))⟩ :=
  ⟨⟨rfl, by decide, by decide, by decide⟩, rfl⟩

/-- The first and the last entry. -/
theorem witness_BufferReadAfterWrite :
    Memory.wf [(3, 5#8)] ∧ bufWrite [(3, 5#8)] 0 7#8 = some [(0, 7#8), (3, 5#8)] ∧
    bufWrite [(3, 5#8)] 22 7#8 = some [(3, 5#8), (22, 7#8)] ∧ bufWrite [(3, 5#8)] 3 0#8 = some [] := by decide

theorem witness_RecordReachesTheOutputs :
    (⟨.chan channelsR, .none, 1, 2⟩ : Event 64).body = .chan channelsR ∧ (⟨.flag 5#8, .none, 1, 2⟩ : Event 64).body = .flag 5#8 ∧
    ((⟨.stop, .none, 1, 2⟩ : Event 64).body ≠ .chan channelsR ∧ (⟨.stop, .none, 1, 2⟩ : Event 64).body ≠ .flag 5#8) := by decide

/-- A NONE beat of each kind, a beat with an event, and a premature start. -/
theorem witness_OneRecordPerBeat :
    (BeatOf (beatAt .split .collect 1#5 0x11#8) 0x11#8 ∧
      step ⟨64, beatAt .split .collect 1#5 0x11#8⟩ = .next ⟨64, nextOf (beatAt .split .collect 1#5 0x11#8)⟩ ∧
      decodeDw (beatAt .split .collect 1#5 0x11#8).decodeWord = .collAccum 0x11#8) ∧
    (BeatOf (beatAt .split .idle 0#5 0x11#8) 0x11#8 ∧
      step ⟨64, beatAt .split .idle 0#5 0x11#8⟩ = .next ⟨64, nextOf (beatAt .split .idle 0#5 0x11#8)⟩ ∧
      decodeDw (beatAt .split .idle 0#5 0x11#8).decodeWord = .idleSkip 0x11#8) ∧
    (BeatOf (beatAt .split .flags 23#5 0x0F#8) 0x0F#8 ∧
      step ⟨64, beatAt .split .flags 23#5 0x0F#8⟩ = .next ⟨64, nextOf (beatAt .split .flags 23#5 0x0F#8)⟩ ∧
      decodeDw (beatAt .split .flags 23#5 0x0F#8).decodeWord ≠ .idleSkip 0x0F#8 ∧
      decodeDw (beatAt .split .flags 23#5 0x0F#8).decodeWord ≠ .collAccum 0x0F#8 ∧
      (nextOf (beatAt .split .flags 23#5 0x0F#8)).evErr = .prematureStart) :=
  ⟨⟨⟨rfl, rfl, rfl, rfl⟩, rfl, by decide⟩, ⟨⟨rfl, rfl, rfl, rfl⟩, rfl, by decide⟩,
    ⟨⟨rfl, rfl, rfl, rfl⟩, rfl, by decide, by decide, by decide⟩⟩

/-- A CHAN beat (idx not 1), and the beats of idx 1 and 2. -/
theorem witness_EventTimestampsAreTheSpan :
    (BeatOf (beatAt .split .collect 22#5 0x11#8) 0x11#8 ∧
      step ⟨64, beatAt .split .collect 22#5 0x11#8⟩ = .next ⟨64, nextOf (beatAt .split .collect 22#5 0x11#8)⟩ ∧
      (nextOf (beatAt .split .collect 22#5 0x11#8)).evKind = .chan) ∧
    (BeatOf (beatAt .split .collect 1#5 0x11#8) 0x11#8 ∧
      step ⟨64, beatAt .split .collect 1#5 0x11#8⟩ = .next ⟨64, nextOf (beatAt .split .collect 1#5 0x11#8)⟩ ∧
      (nextOf (beatAt .split .collect 1#5 0x11#8)).evKind ≠ .chan ∧ (beatAt .split .collect 1#5 0x11#8).st = .collect ∧
      (beatAt .split .collect 1#5 0x11#8).idx = 1#5) ∧
    (BeatOf (beatAt .unified .collect 2#5 0x11#8) 0x11#8 ∧
      step ⟨64, beatAt .unified .collect 2#5 0x11#8⟩ = .next ⟨64, nextOf (beatAt .unified .collect 2#5 0x11#8)⟩ ∧
      (beatAt .unified .collect 2#5 0x11#8).idx ≠ 1#5) :=
  ⟨⟨⟨rfl, rfl, rfl, rfl⟩, rfl, by decide⟩, ⟨⟨rfl, rfl, rfl, rfl⟩, rfl, by decide, rfl, rfl⟩,
    ⟨⟨rfl, rfl, rfl, rfl⟩, rfl, by decide⟩⟩

/-- A premature start at each end of its range, a bad terminator of 0x0F, and an unexpected byte. -/
theorem witness_ErrorsReportAndRecover :
    (BeatOf (beatAt .unified .collect 23#5 0x0F#8) 0x0F#8 ∧
      step ⟨64, beatAt .unified .collect 23#5 0x0F#8⟩ = .next ⟨64, nextOf (beatAt .unified .collect 23#5 0x0F#8)⟩ ∧
      (nextOf (beatAt .unified .collect 23#5 0x0F#8)).evErr = .prematureStart) ∧
    (BeatOf (beatAt .split .awaitStop 24#5 0x0F#8) 0x0F#8 ∧
      step ⟨64, beatAt .split .awaitStop 24#5 0x0F#8⟩ = .next ⟨64, nextOf (beatAt .split .awaitStop 24#5 0x0F#8)⟩ ∧
      (nextOf (beatAt .split .awaitStop 24#5 0x0F#8)).evErr = .badTerminator) ∧
    (BeatOf (beatAt .split .idle 0#5 0x00#8) 0x00#8 ∧
      step ⟨64, beatAt .split .idle 0#5 0x00#8⟩ = .next ⟨64, nextOf (beatAt .split .idle 0#5 0x00#8)⟩ ∧ 0x00#8 ≠ 0x0F#8 ∧
      (beatAt .split .idle 0#5 0x00#8).st = .idle) :=
  ⟨⟨⟨rfl, rfl, rfl, rfl⟩, rfl, by decide⟩, ⟨⟨rfl, rfl, rfl, rfl⟩, rfl, by decide⟩,
    ⟨⟨rfl, rfl, rfl, rfl⟩, rfl, by decide, rfl⟩⟩

/-- Frame positions 1 and 23, the latter in both modes; and channel values whose first byte is 0x0F. -/
theorem witness_StartSyncInsideAFrameAbortsIt :
    (BeatOf (beatAt .split .collect 1#5 0x0F#8) 0x0F#8 ∧ 1 ≤ (beatAt .split .collect 1#5 0x0F#8).idx.toNat ∧
      (beatAt .split .collect 1#5 0x0F#8).idx.toNat ≤ 23 ∧
      step ⟨64, beatAt .split .collect 1#5 0x0F#8⟩ = .next ⟨64, nextOf (beatAt .split .collect 1#5 0x0F#8)⟩) ∧
    (BeatOf (beatAt .split .flags 23#5 0x0F#8) 0x0F#8 ∧ (beatAt .split .flags 23#5 0x0F#8).idx.toNat ≤ 23 ∧
      step ⟨64, beatAt .split .flags 23#5 0x0F#8⟩ = .next ⟨64, nextOf (beatAt .split .flags 23#5 0x0F#8)⟩) ∧
    (BeatOf (beatAt .unified .collect 23#5 0x0F#8) 0x0F#8 ∧ (beatAt .unified .collect 23#5 0x0F#8).idx.toNat ≤ 23 ∧
      step ⟨64, beatAt .unified .collect 23#5 0x0F#8⟩ = .next ⟨64, nextOf (beatAt .unified .collect 23#5 0x0F#8)⟩) ∧
    (Vector.replicate 16 0x70F#11)[0] = 0x70F#11 :=
  ⟨⟨⟨rfl, rfl, rfl, rfl⟩, by decide, by decide, rfl⟩, ⟨⟨rfl, rfl, rfl, rfl⟩, by decide, rfl⟩,
    ⟨⟨rfl, rfl, rfl, rfl⟩, by decide, rfl⟩, by decide⟩

theorem witness_FlagWiresHoldBetweenDecodes :
    exec (.flgsDecode 0x0B#8) ⟨64, beatAt .split .flags 23#5 0x0B#8⟩ =
      .next ⟨64, execOf (.flgsDecode 0x0B#8) (beatAt .split .flags 23#5 0x0B#8)⟩ ∧
    ((∀ b, Instr.awstStop ≠ .flgsDecode b) ∧ Instr.awstStop ≠ .beat ∧ (∀ v, Instr.awstStop ≠ .reset v) ∧
      exec .awstStop ⟨64, beatAt .split .awaitStop 24#5 0x00#8⟩ =
        .next ⟨64, execOf .awstStop (beatAt .split .awaitStop 24#5 0x00#8)⟩) :=
  ⟨rfl, nofun, nofun, nofun, rfl⟩

/-- One edge in unified mode: the CHAN of the folded flags byte. -/
theorem witness_UnifiedModeNeverFlags :
    (beatAt .unified .collect 23#5 0x0C#8).mode = .unified ∧ (beatAt .unified .collect 23#5 0x0C#8).flagsByte = 0#8 ∧
    runEvents 1 ⟨64, beatAt .unified .collect 23#5 0x0C#8⟩ =
      some ((⟨64, nextOf (beatAt .unified .collect 23#5 0x0C#8)⟩ : State).samples,
        ⟨64, nextOf (beatAt .unified .collect 23#5 0x0C#8)⟩) :=
  ⟨rfl, rfl, rfl⟩

/-- Two flags bytes that differ only in the bits without meaning. -/
theorem witness_FlagLabelsHighestBitFirst :
    flagCh17 0xF5#8 = flagCh17 0x05#8 ∧ flagCh18 0xF5#8 = flagCh18 0x05#8 ∧ flagFrameLost 0xF5#8 = flagFrameLost 0x05#8 ∧
    flagFailsafe 0xF5#8 = flagFailsafe 0x05#8 := by decide

theorem witness_ScaleIsNonDecreasingAndOnto :
    (2046#11).toNat ≤ (2047#11).toNat ∧ (2047#11).toNat = (2046#11).toNat + 1 ∧ (0#11).toNat ≤ (1#11).toNat ∧
    881 ≤ 881 ∧ 2159 ≤ 2159 := by decide

theorem witness_StepKeepsInvariant :
    Inv { Block.reset .unified 64 with inputs := Script.beat 0x0F#8 4 5 } ∧
    step ⟨64, { Block.reset .unified 64 with inputs := Script.beat 0x0F#8 4 5 }⟩ =
      .next ⟨64, nextOf { Block.reset .unified 64 with inputs := Script.beat 0x0F#8 4 5 }⟩ := by
  refine ⟨⟨by decide, fun _ => ⟨rfl, rfl, fun _ => rfl⟩, nofun, nofun, nofun, by decide, nofun, by decide, ?_⟩, rfl⟩
  exact fun _ => ⟨nofun, rfl⟩

/-- A map from 64-bit to three-bit timestamps that keeps 0, a step and a refused step. -/
theorem witness_TimestampsAreOpaque :
    (BitVec.setWidth 3 : Timestamp 64 → Timestamp 3) 0#64 = 0#3 ∧
    step ⟨64, stateAt .split .collect 1#5 [] 0 (Script.beat 0x11#8 9 15)⟩ =
      .next ⟨64, nextOf (stateAt .split .collect 1#5 [] 0 (Script.beat 0x11#8 9 15))⟩ ∧
    step ⟨64, beatAt .split .idle 1#5 0x11#8⟩ = .refused .unreachableState := ⟨by decide, rfl, rfl⟩

theorem witness_NoTimeout :
    (stateAt .split .collect 4#5 [(0, 1#8)] 2 (Script.idle 2 ++ Script.beat 0x0F#8 4 5)).reachable = true ∧
    ∀ p ∈ (stateAt .split .collect 4#5 [(0, 1#8)] 2 (Script.idle 2 ++ Script.beat 0x0F#8 4 5)).inputs.take 2,
      p.rst = false ∧ p.inValid = false := by decide

/-- Three start-sync bytes in a row, R207's own example. -/
theorem witness_RepeatedStartSyncs :
    { Block.reset .split 64 with inputs := Script.beats [0x0F#8, 0x0F#8, 0x0F#8] 0 }.reachable = true ∧
    { Block.reset .split 64 with inputs := Script.beats [0x0F#8, 0x0F#8, 0x0F#8] 0 }.st = .idle ∧
    { Block.reset .split 64 with inputs := Script.beats [0x0F#8, 0x0F#8, 0x0F#8] 0 }.inputs =
      Script.beatsWith (Script.times 0) (List.replicate (2 + 1) 0x0F#8) := ⟨rfl, rfl, rfl⟩

theorem payloadR_has_no_start_sync : ∀ k (h : k < 22), payloadR[k] ≠ 0x0F#8 := by decide

/-- V7's frame, fed from IDLE, from COLLECT at CAP and from FLAGS. -/
theorem witness_ValidFrameInSplitMode :
    ((stateAt .split .idle 0#5 [] 0 (Script.frame payloadR 0x0B#8 0)).mode = .split ∧
      (stateAt .split .idle 0#5 [] 0 (Script.frame payloadR 0x0B#8 0)).reachable = true ∧
      (stateAt .split .idle 0#5 [] 0 (Script.frame payloadR 0x0B#8 0)).st ≠ .awaitStop ∧
      (∀ k (h : k < 22), payloadR[k] ≠ 0x0F#8) ∧ 0x0B#8 ≠ 0x0F#8 ∧
      (stateAt .split .idle 0#5 [] 0 (Script.frame payloadR 0x0B#8 0)).inputs =
        Script.beatsWith (Script.times 0) (Script.frameBytes payloadR 0x0B#8) ++ []) ∧
    (stateAt .split .collect 22#5 [] 0 (Script.frame payloadR 0x0B#8 0)).reachable = true ∧
    (stateAt .split .flags 23#5 [] 0 (Script.frame payloadR 0x0B#8 0)).reachable = true :=
  ⟨⟨rfl, rfl, by decide, payloadR_has_no_start_sync, by decide, (List.append_nil _).symm⟩, rfl, rfl⟩

/-- V8's frame, fed from IDLE and from COLLECT at CAP. -/
theorem witness_ValidFrameInUnifiedMode :
    ((stateAt .unified .idle 0#5 [] 0 (Script.frame payloadR 0x0C#8 0)).mode = .unified ∧
      (stateAt .unified .idle 0#5 [] 0 (Script.frame payloadR 0x0C#8 0)).reachable = true ∧
      (stateAt .unified .idle 0#5 [] 0 (Script.frame payloadR 0x0C#8 0)).st ≠ .awaitStop ∧
      (∀ k (h : k < 22), payloadR[k] ≠ 0x0F#8) ∧ 0x0C#8 ≠ 0x0F#8 ∧
      (stateAt .unified .idle 0#5 [] 0 (Script.frame payloadR 0x0C#8 0)).inputs =
        Script.beatsWith (Script.times 0) (Script.frameBytes payloadR 0x0C#8) ++ []) ∧
    (stateAt .unified .collect 23#5 [] 0 (Script.frame payloadR 0x0C#8 0)).reachable = true :=
  ⟨⟨rfl, rfl, by decide, payloadR_has_no_start_sync, by decide, (List.append_nil _).symm⟩, rfl⟩

theorem witness_FrameAfterAMissingStopIsLost :
    (stateAt .split .awaitStop 24#5 [] 0 (Script.frame payloadR 0x0B#8 0)).reachable = true ∧
    (stateAt .split .awaitStop 24#5 [] 0 (Script.frame payloadR 0x0B#8 0)).st = .awaitStop ∧
    (∀ k (h : k < 22), payloadR[k] ≠ 0x0F#8) ∧ 0x0B#8 ≠ 0x0F#8 ∧
    (stateAt .split .awaitStop 24#5 [] 0 (Script.frame payloadR 0x0B#8 0)).inputs =
      Script.beatsWith (Script.times 0) (Script.frameBytes payloadR 0x0B#8) ++ [] :=
  ⟨rfl, rfl, payloadR_has_no_start_sync, by decide, (List.append_nil _).symm⟩

/-- Idle edges around two beats. -/
theorem witness_IdleEdgesDoNotChangeTheEvents :
    (beatAt .split .collect 22#5 0x11#8).reachable = true ∧
    ∀ p ∈ (Script.idle 1 ++ Script.beat 0x11#8 4 5 ++ Script.idle 2 ++ Script.beat 0x08#8 6 7 : List (Ports 64)),
      p.rst = false := by decide

/-- The beats of a restarted split-mode frame after its CHAN: the start byte and 22 payload bytes (V37's fastest path). -/
def afterChanSplit : List (Ports 64) := Script.beats (0x0F#8 :: List.replicate 22 0x00#8) 0

/-- A CHAN beat in split mode, then a second CHAN 23 beats later: every hypothesis of the first clause holds. -/
theorem witness_EventsAreSpacedApart_chan :
    step ⟨64, stateAt .split .collect 22#5 [] 0 (Script.beat 0x00#8 4 5 ++ afterChanSplit)⟩ =
      .next ⟨64, nextOf (stateAt .split .collect 22#5 [] 0 (Script.beat 0x00#8 4 5 ++ afterChanSplit))⟩ ∧
    ((runEvents 23 ⟨64, nextOf (stateAt .split .collect 22#5 [] 0 (Script.beat 0x00#8 4 5 ++ afterChanSplit))⟩).map
      fun r => r.1.map (·.event.body.kind)) = some [.start, .chan] ∧
    NoReset 23 (nextOf (stateAt .split .collect 22#5 [] 0 (Script.beat 0x00#8 4 5 ++ afterChanSplit))) ∧
    (nextOf (stateAt .split .collect 22#5 [] 0 (Script.beat 0x00#8 4 5 ++ afterChanSplit))).evKind = .chan :=
  ⟨rfl, by decide, by unfold NoReset; decide, rfl⟩

/-- The beats that end a frame and bring the next one to its flags byte: stop, start, 22 payload bytes and the flags byte
(V37): from one FLAG to the next in split mode, from one CHAN to the next in unified mode. -/
def stopThenFrame : List (Ports 64) := Script.beats (0x00#8 :: 0x0F#8 :: List.replicate 23 0x00#8) 0

/-- A FLAG beat, then a second FLAG 25 beats later. -/
theorem witness_EventsAreSpacedApart_flag :
    step ⟨64, stateAt .split .flags 23#5 [] 0 (Script.beat 0x01#8 4 5 ++ stopThenFrame)⟩ =
      .next ⟨64, nextOf (stateAt .split .flags 23#5 [] 0 (Script.beat 0x01#8 4 5 ++ stopThenFrame))⟩ ∧
    ((runEvents 25 ⟨64, nextOf (stateAt .split .flags 23#5 [] 0 (Script.beat 0x01#8 4 5 ++ stopThenFrame))⟩).map
      fun r => r.1.map (·.event.body.kind)) = some [.stop, .start, .chan, .flag] ∧
    NoReset 25 (nextOf (stateAt .split .flags 23#5 [] 0 (Script.beat 0x01#8 4 5 ++ stopThenFrame))) ∧
    (nextOf (stateAt .split .flags 23#5 [] 0 (Script.beat 0x01#8 4 5 ++ stopThenFrame))).evKind = .flag :=
  ⟨rfl, by decide, by unfold NoReset; decide, rfl⟩

/-- A CHAN beat in unified mode, then a second CHAN 25 beats later. -/
theorem witness_EventsAreSpacedApart_chan_unified :
    step ⟨64, stateAt .unified .collect 23#5 [] 0 (Script.beat 0x00#8 4 5 ++ stopThenFrame)⟩ =
      .next ⟨64, nextOf (stateAt .unified .collect 23#5 [] 0 (Script.beat 0x00#8 4 5 ++ stopThenFrame))⟩ ∧
    ((runEvents 25 ⟨64, nextOf (stateAt .unified .collect 23#5 [] 0 (Script.beat 0x00#8 4 5 ++ stopThenFrame))⟩).map
      fun r => r.1.map (·.event.body.kind)) = some [.stop, .start, .chan] ∧
    NoReset 25 (nextOf (stateAt .unified .collect 23#5 [] 0 (Script.beat 0x00#8 4 5 ++ stopThenFrame))) ∧
    (nextOf (stateAt .unified .collect 23#5 [] 0 (Script.beat 0x00#8 4 5 ++ stopThenFrame))).evKind = .chan ∧
    (nextOf (stateAt .unified .collect 23#5 [] 0 (Script.beat 0x00#8 4 5 ++ stopThenFrame))).mode = .unified :=
  ⟨rfl, by decide, by unfold NoReset; decide, rfl, rfl⟩

end Sys2Proof.Tests
end

namespace Sys2Proof.Machine

/-- Settles O1: the three conjuncts are the model's three forms of a step, a reset edge, a beat (as BEAT and as the class of
its decode word) and an idle edge. -/
theorem stepRunsTheEdgePresented : Obligations.StepRunsTheEdgePresented := by
  unfold Obligations.StepRunsTheEdgePresented
  intro w s
  refine ⟨fun hrst => ?reset, fun hrst hvalid => ?beat, fun hrst hvalid => ?idle⟩
  case reset => exact step_of_rst hrst
  case beat => exact ⟨step_of_beat hrst hvalid, step_of_beat_class hrst hvalid⟩
  case idle => exact step_of_idle hrst hvalid

end Sys2Proof.Machine

namespace Sys2Proof.Machine

/-! ## The table of R81 -/

/-- The class of the first row of a table that fits a word, with the class each row names (R81). -/
def firstFit (w : BitVec 16) (rows : List (DwRow × Instr)) : Option Instr :=
  (rows.find? fun r => w &&& r.1.mask == r.1.pattern).map (·.2)

/-- Priority: a row that fits decides, a row that does not leaves the word to the rows below it. -/
theorem firstFit_cons (w : BitVec 16) (row : DwRow) (i : Instr) (rows : List (DwRow × Instr)) :
    firstFit w ((row, i) :: rows) = if row.fits w then some i else firstFit w rows := by
  unfold firstFit DwRow.fits
  rw [List.find?_cons]
  cases w &&& row.mask == row.pattern <;> rfl

/-- The ten rows of R81 in priority order, each with the class it names for the word `w`. -/
def classTable (w : BitVec 16) : List (DwRow × Instr) :=
  [(rowIdleStart, .idleStart), (rowIdleSkip, .idleSkip (dwByte w)), (rowCollRestart, .collRestart),
    (rowCollChanSplit, .collChanSplit (dwByte w)), (rowCollChanUnified, .collChanUnified (dwByte w)),
    (rowCollAccum, .collAccum (dwByte w)), (rowFlgsRestart, .flgsRestart), (rowFlgsDecode, .flgsDecode (dwByte w)),
    (rowAwstStop, .awstStop), (rowAwstDesync, .awstDesync (dwByte w))]

/-- The decoder answers the first row that fits; its untested last arm is the tenth row, which fits there. -/
theorem firstFit_classTable (w : BitVec 16) : firstFit w (classTable w) = some (decodeDw w) := by
  simp only [classTable, firstFit_cons, decodeDw]
  split_ifs with h1 h2 h3 h4 h5 h6 h7 h8 h9 h10
  case neg =>
    exact absurd (decodeDw_last_row w (Bool.eq_false_iff.mpr h2) (Bool.eq_false_iff.mpr h6) (Bool.eq_false_iff.mpr h8)) h10
  all_goals rfl

/-- Rows 2, 6, 8 and 10 test the state alone, one state each, so every word fits one of them (R81). -/
theorem state_rows_cover (w : BitVec 16) :
    rowIdleSkip.fits w = true ∨ rowCollAccum.fits w = true ∨ rowFlgsDecode.fits w = true ∨ rowAwstDesync.fits w = true := by
  rw [← packDw_fields w, rowIdleSkip_fits, rowCollAccum_fits, rowFlgsDecode_fits, rowAwstDesync_fits]
  cases dwSt w <;> decide

/-- Settles O8: the decoder is the first-fit search through the table of R81, and the rows that test the state alone cover
every word. -/
theorem classIsTheFirstRowThatFits : Obligations.ClassIsTheFirstRowThatFits := by
  unfold Obligations.ClassIsTheFirstRowThatFits
  intro w
  refine ⟨firstFit_classTable w, ?cover⟩
  case cover =>
    simpa only [DwRow.fits, beq_iff_eq, rowIdleSkip, rowCollAccum, rowFlgsDecode, rowAwstDesync] using state_rows_cover w

/-! ## Every byte is legal -/

section Beats

variable {tsw : Nat} {s : Block tsw} {b : Byte}

/-- R88, R101: a beat of any byte in a reachable triple completes. Nine classes commit at once; COLL_ACCUM's buffer entry
exists. -/
theorem step_completes_of_beat (hb : BeatOf s b) : ∃ t, step ⟨tsw, s⟩ = .next ⟨tsw, t⟩ := by
  obtain ⟨hreset, hbeat, hidle⟩ := decodeDw_is_class s.decodeWord
  rw [step_of_beat_class hb.rst hb.inValid]
  cases hd : decodeDw s.decodeWord with
  | collAccum v =>
    have hstate := decodeDw_state s.decodeWord
    rw [hd, Block.decodeWord, dwSt_packDw] at hstate
    have hst : s.st = .collect := (Option.some.inj hstate).symm
    have hbuf : bufWrite s.buf (s.idx.toNat - 1) v = some (s.buf.put (s.idx.toNat - 1) v) :=
      bufWrite_eq_some.mpr ⟨accum_entry_lt hb.reachable hst, rfl⟩
    rw [exec, execCollAccum, onReachableEdge_of_class hb hd]
    simp only [hbuf]
    exact ⟨_, rfl⟩
  | reset v => exact absurd hd (hreset v)
  | beat => exact absurd hd hbeat
  | idleEdge => exact absurd hd hidle
  | idleStart | idleSkip v | collRestart | collChanSplit v | collChanUnified v | flgsRestart | flgsDecode v | awstStop
  | awstDesync v => exact ⟨_, onReachableEdge_of_class hb hd _⟩

/-- The start-sync rule matches a start-sync byte everywhere but in AWAIT_STOP (R113). -/
theorem startDetect_packDw (m : Mode) (st : St) (idx : BitVec 5) (b : Byte) :
    startDetect (packDw m st idx b) = true ↔ b = syncStart ∧ st ≠ .awaitStop := by
  cases st <;> simp [startDetect]

/-- The stop-sync rule matches a stop-sync byte in AWAIT_STOP (R113). -/
theorem stopDetect_packDw (m : Mode) (st : St) (idx : BitVec 5) (b : Byte) :
    stopDetect (packDw m st idx b) = true ↔ b = syncStop ∧ st = .awaitStop := by
  simp [stopDetect]

/-- Outside AWAIT_STOP a byte that matches no start-sync rule is no start-sync byte. -/
theorem ne_syncStart_of_not_startDetect (hb : BeatOf s b) (hst : s.st ≠ .awaitStop)
    (hstart : startDetect s.decodeWord = false) : b ≠ syncStart := by
  rintro rfl
  rw [decodeWord_of_beat hb rfl] at hstart
  exact Bool.eq_false_iff.mp hstart ((startDetect_packDw ..).mpr ⟨rfl, hst⟩)

/-- In AWAIT_STOP a byte that matches no stop-sync rule is no stop-sync byte. -/
theorem ne_syncStop_of_not_stopDetect (hb : BeatOf s b) (hst : s.st = .awaitStop)
    (hstop : stopDetect s.decodeWord = false) : b ≠ syncStop := by
  rintro rfl
  rw [decodeWord_of_beat hb rfl] at hstop
  exact Bool.eq_false_iff.mp hstop ((stopDetect_packDw ..).mpr ⟨rfl, hst⟩)

end Beats

/-- Settles O15: a beat completes in every reachable triple, and by state a byte without a sync rule is skipped, taken as
payload, or a bad terminator. -/
theorem everyByteIsLegal : Obligations.EveryByteIsLegal := by
  unfold Obligations.EveryByteIsLegal
  intro w s b hb
  refine ⟨step_completes_of_beat hb, fun hstart hstop => ?_⟩
  have hne (h : s.st ≠ .awaitStop) := ne_syncStart_of_not_startDetect hb h hstart
  cases hst : s.st with
  | idle =>
    refine .inl ⟨rfl, ?_⟩
    rw [decodeWord_of_beat hb hst, decodeDw_idle, if_neg (hne (by simp [hst]))]
  | collect =>
    refine .inr (.inl ⟨.inl rfl, ?_⟩)
    rcases decodeDw_collect_of_reachable hb hst (hne (by simp [hst])) with ⟨-, -, hd⟩ | ⟨-, -, hd⟩ | ⟨-, hd⟩
    · exact .inr (.inl hd)
    · exact .inr (.inr (.inl hd))
    · exact .inl hd
  | flags =>
    refine .inr (.inl ⟨.inr rfl, .inr (.inr (.inr ?_))⟩)
    rw [decodeWord_of_beat hb hst, decodeDw_flags, if_neg (hne (by simp [hst]))]
  | awaitStop =>
    refine .inr (.inr ⟨rfl, ?_⟩)
    rw [decodeWord_of_beat hb hst, decodeDw_awaitStop, if_neg (ne_syncStop_of_not_stopDetect hb hst hstop)]

/-! ## The layout of the decode word -/

section Fields

variable (m : Mode) (st : St) (idx : BitVec 5) (b : Byte)

/-- Bit 15 of the decode word (R80), from the field lemma: the 1-bit code is one to one. -/
theorem packDw_modeBit : (packDw m st idx b).extractLsb' 15 1 = m.code := by
  rw [← Mode.code_ofCode ((packDw m st idx b).extractLsb' 15 1)]
  exact congrArg Mode.code (dwMode_packDw m st idx b)

/-- Bits 14:13 of the decode word (R80), from the field lemma: the 2-bit code is one to one. -/
theorem packDw_stBits : (packDw m st idx b).extractLsb' 13 2 = st.code := by
  rw [← St.code_ofCode ((packDw m st idx b).extractLsb' 13 2)]
  exact congrArg St.code (dwSt_packDw m st idx b)

end Fields

/-- Settles O5: each field reads back at its bit positions, and the word of an edge is packed without its timestamps. -/
theorem decodeWordLayout : Obligations.DecodeWordLayout := by
  unfold Obligations.DecodeWordLayout
  refine ⟨fun m st idx b => ⟨?mode, packDw_stBits m st idx b, dwIdx_packDw m st idx b, dwByte_packDw m st idx b⟩,
    fun w s rst inValid b t0 t1 ps => ?word⟩
  case mode => rw [packDw_modeBit]; cases m <;> rfl
  case word => rfl

/-! ## Edges that are no beat -/

section NoBeat

variable {tsw : Nat} {s : Block tsw}

/-- R230: the whole answer of a reset edge, in any register state. -/
theorem step_rst_eq (hr : s.ports.rst = true) :
    step ⟨tsw, s⟩ = .next ⟨tsw, { Block.reset s.mode tsw with inputs := s.inputs.tail }⟩ := by
  rw [step_of_rst hr, exec, execReset, onEdge, if_pos ((presents_of_rst hr _).mpr rfl)]

/-- R237, R87: the whole answer of an idle edge. -/
theorem step_idle_eq (hr : s.ports.rst = false) (hv : s.ports.inValid = false) :
    step ⟨tsw, s⟩ = if s.reachable then
      .next ⟨tsw, { s with evValid := false, evKind := .none, evErr := .none, inputs := s.inputs.tail }⟩
      else .refused .unreachableState := by
  rw [step_of_idle hr hv]
  split_ifs with hs
  · exact onReachableEdge_of _ hs ((presents_of_idle hr hv _).mpr rfl)
  · exact onReachableEdge_unreachable _ (Bool.eq_false_iff.mpr hs)

/-- R82: on an edge that is no beat the step does not depend on the byte presented. -/
theorem step_byte_irrelevant (p : Ports tsw) (b : Byte) (ps : List (Ports tsw)) (hp : p.rst = true ∨ p.inValid = false) :
    step ⟨tsw, { s with inputs := { p with inByte := b } :: ps }⟩ = step ⟨tsw, { s with inputs := p :: ps }⟩ := by
  by_cases hr : p.rst = true
  · rw [step_rst_eq, step_rst_eq]
    · rfl
    exacts [hr, hr]
  · have hidle : p.rst = false ∧ p.inValid = false := ⟨Bool.eq_false_iff.mpr hr, hp.resolve_left hr⟩
    rw [step_idle_eq, step_idle_eq]
    · rfl
    exacts [hidle.1, hidle.2, hidle.1, hidle.2]

end NoBeat

/-- Settles O6: the packing and the rows are checked on the four control words, every step decodes the control word, and
without a beat the byte does not reach the next state. -/
theorem controlWordRows : Obligations.ControlWordRows := by
  unfold Obligations.ControlWordRows
  refine ⟨?bits, ?rows, fun w s => rfl, fun w s p b ps hp => step_byte_irrelevant p b ps hp⟩
  case bits => decide
  case rows => decide

end Sys2Proof.Machine

namespace Sys2Proof.Machine

/-! ## The class of a beat, by state

The decoder's rule for each state (R81), of the decode word that a beat forms. -/

section BeatClass

variable {tsw : Nat} {s : Block tsw} {b : Byte}

theorem class_of_beat_idle (hb : BeatOf s b) (hst : s.st = .idle) :
    decodeDw s.decodeWord = if b = syncStart then .idleStart else .idleSkip b := by
  rw [decodeWord_of_beat hb hst, decodeDw_idle]

theorem class_of_beat_collect (hb : BeatOf s b) (hst : s.st = .collect) :
    decodeDw s.decodeWord =
      if b = syncStart then .collRestart
      else if s.mode = .split ∧ s.idx = 22#5 then .collChanSplit b
      else if s.mode = .unified ∧ s.idx = 23#5 then .collChanUnified b
      else .collAccum b := by
  rw [decodeWord_of_beat hb hst, decodeDw_collect]

theorem class_of_beat_flags (hb : BeatOf s b) (hst : s.st = .flags) :
    decodeDw s.decodeWord = if b = syncStart then .flgsRestart else .flgsDecode b := by
  rw [decodeWord_of_beat hb hst, decodeDw_flags]

theorem class_of_beat_awaitStop (hb : BeatOf s b) (hst : s.st = .awaitStop) :
    decodeDw s.decodeWord = if b = syncStop then .awstStop else .awstDesync b := by
  rw [decodeWord_of_beat hb hst, decodeDw_awaitStop]

/-- R105: below CAP a payload byte is an ACCUM beat, since both CHAN rows stand at CAP. -/
theorem class_of_beat_below_cap (hb : BeatOf s b) (hst : s.st = .collect) (hlt : s.idx.toNat < cap s.mode)
    (hne : b ≠ syncStart) : decodeDw s.decodeWord = .collAccum b := by
  rcases decodeDw_collect_of_reachable hb hst hne with ⟨hm, hi, -⟩ | ⟨hm, hi, -⟩ | ⟨-, hd⟩
  · exact absurd hlt (by rw [hm, hi]; decide)
  · exact absurd hlt (by rw [hm, hi]; decide)
  · exact hd

end BeatClass

/-! ## The classes of IDLE -/

/-- Settles O17: a beat of 0x0F in IDLE selects IDLE_START, which commits its record over `startFrame`. -/
theorem idleStartOpensAFrame : Obligations.IdleStartOpensAFrame := by
  unfold Obligations.IdleStartOpensAFrame
  intro w s hb hst
  have hd : decodeDw s.decodeWord = .idleStart := (class_of_beat_idle hb hst).trans (if_pos rfl)
  exact onReachableEdge_of_class hb hd _

/-- Settles O18: a beat of any other byte in IDLE selects IDLE_SKIP, which commits a NONE record over the same core. -/
theorem idleSkipChangesNoCoreRegister : Obligations.IdleSkipChangesNoCoreRegister := by
  unfold Obligations.IdleSkipChangesNoCoreRegister
  intro w s b hb hst hne
  have hd : decodeDw s.decodeWord = .idleSkip b := (class_of_beat_idle hb hst).trans (if_neg hne)
  exact onReachableEdge_of_class hb hd _

/-! ## The classes of COLLECT -/

/-- Settles O19: in COLLECT the row of 0x0F stands before both CHAN rows, so the frame restarts at CAP as well. -/
theorem collRestartDropsTheFrame : Obligations.CollRestartDropsTheFrame := by
  unfold Obligations.CollRestartDropsTheFrame
  intro w s hb hst
  have hd : decodeDw s.decodeWord = .collRestart := (class_of_beat_collect hb hst).trans (if_pos rfl)
  exact onReachableEdge_of_class hb hd _

/-- Settles O20: below CAP the class is COLL_ACCUM, and the entry it writes exists. -/
theorem collAccumStoresOneByte : Obligations.CollAccumStoresOneByte := by
  unfold Obligations.CollAccumStoresOneByte
  intro w s b hb hst hlt hne
  have hd : decodeDw s.decodeWord = .collAccum b := class_of_beat_below_cap hb hst hlt hne
  have hbuf : bufWrite s.buf (s.idx.toNat - 1) b = some (s.buf.put (s.idx.toNat - 1) b) :=
    bufWrite_eq_some.mpr ⟨accum_entry_lt hb.reachable hst, rfl⟩
  rw [exec, execCollAccum, onReachableEdge_of_class hb hd]
  simp only [hbuf]
  rfl

/-- Settles O21: at split mode's CAP the class is COLL_CHAN_SPLIT, whose slicer operand is buf[0..20] and the byte. -/
theorem collChanSplitEmitsTheChannels : Obligations.CollChanSplitEmitsTheChannels := by
  unfold Obligations.CollChanSplitEmitsTheChannels
  intro w s b hb hm hst hi hne
  have hd : decodeDw s.decodeWord = .collChanSplit b := by
    rw [class_of_beat_collect hb hst, if_neg hne, if_pos ⟨hm, hi⟩]
  rw [← analogBytesWith_eq]
  exact onReachableEdge_of_class hb hd _

/-- Settles O22: at unified mode's CAP the class is COLL_CHAN_UNIFIED, whose slicer operand is buf[0..21]; the folded byte
is not among them. -/
theorem collChanUnifiedEmitsTheChannels : Obligations.CollChanUnifiedEmitsTheChannels := by
  unfold Obligations.CollChanUnifiedEmitsTheChannels
  intro w s b hb hm hst hi hne
  have hd : decodeDw s.decodeWord = .collChanUnified b := by
    rw [class_of_beat_collect hb hst, if_neg hne, if_neg (by simp [hm]), if_pos ⟨hm, hi⟩]
  rw [← analogBytes_eq]
  exact onReachableEdge_of_class hb hd _

/-! ## The classes of FLAGS -/

/-- Settles O23: a beat of 0x0F in FLAGS selects FLGS_RESTART, the recovery from a premature start. -/
theorem flgsRestartDropsTheFrame : Obligations.FlgsRestartDropsTheFrame := by
  unfold Obligations.FlgsRestartDropsTheFrame
  intro w s hb hst
  have hd : decodeDw s.decodeWord = .flgsRestart := (class_of_beat_flags hb hst).trans (if_pos rfl)
  exact onReachableEdge_of_class hb hd _

/-- Settles O24: a beat of any other byte in FLAGS selects FLGS_DECODE, whose FLAG record carries the byte to
`flagsByte`. -/
theorem flgsDecodeLatchesTheFlags : Obligations.FlgsDecodeLatchesTheFlags := by
  unfold Obligations.FlgsDecodeLatchesTheFlags
  intro w s b hb hst hne
  have hd : decodeDw s.decodeWord = .flgsDecode b := (class_of_beat_flags hb hst).trans (if_neg hne)
  exact onReachableEdge_of_class hb hd _

/-! ## The classes of AWAIT_STOP -/

/-- Settles O25: a beat of 0x00 in AWAIT_STOP selects AWST_STOP, which commits its record over `clearFrame`. -/
theorem awstStopClosesTheFrame : Obligations.AwstStopClosesTheFrame := by
  unfold Obligations.AwstStopClosesTheFrame
  intro w s hb hst
  have hd : decodeDw s.decodeWord = .awstStop := (class_of_beat_awaitStop hb hst).trans (if_pos rfl)
  exact onReachableEdge_of_class hb hd _

/-- Settles O26: a beat of any other byte in AWAIT_STOP, 0x0F among them, selects AWST_DESYNC, the recovery from a bad
terminator. -/
theorem awstDesyncDropsBackToIdle : Obligations.AwstDesyncDropsBackToIdle := by
  unfold Obligations.AwstDesyncDropsBackToIdle
  intro w s b hb hst hne
  have hd : decodeDw s.decodeWord = .awstDesync b := (class_of_beat_awaitStop hb hst).trans (if_neg hne)
  exact onReachableEdge_of_class hb hd _

/-! ## The span of a record -/

section Span

variable {tsw : Nat} {s t : Block tsw} {b : Byte}

/-- R116, R32: every beat's record ends at the beat's t1 and starts at fs for a CHAN, at the beat's t0 for every other kind;
`ev_valid` tells a record from NONE. -/
theorem record_span_of_beat (hb : BeatOf s b) (h : step ⟨tsw, s⟩ = .next ⟨tsw, t⟩) :
    t.evTsEnd = s.ports.inTsEnd ∧ t.evTsStart = (if t.evKind = .chan then s.fs else s.ports.inTsStart) ∧
      t.evValid = (t.evKind != .none) := by
  cases step_case h with
  | reset hr => exact absurd (hb.rst.symm.trans hr) Bool.false_ne_true
  | idleEdge hr hv hs => exact absurd (hv.symm.trans hb.inValid) Bool.false_ne_true
  | idleStart | idleSkip | collRestart | collChanSplit | collChanUnified | collAccum | flgsRestart | flgsDecode | awstStop
  | awstDesync => exact ⟨rfl, rfl, rfl⟩

/-- R105 to R107: a payload byte latches its t0 in fs at position 1, and every later one keeps fs, the CHAN byte too. -/
theorem fs_of_payload_beat (hb : BeatOf s b) (hst : s.st = .collect) (hne : b ≠ syncStart)
    (h : step ⟨tsw, s⟩ = .next ⟨tsw, t⟩) : t.fs = if s.idx = 1#5 then s.ports.inTsStart else s.fs := by
  rcases decodeDw_collect_of_reachable hb hst hne with ⟨hm, hi, hd⟩ | ⟨hm, hi, hd⟩ | ⟨hlt, hd⟩ <;>
    rw [step_of_class hb hd] at h
  · rw [collChanSplitEmitsTheChannels tsw s b hb hm hst hi hne] at h
    cases h
    rw [hi, if_neg (by decide)]
  · rw [collChanUnifiedEmitsTheChannels tsw s b hb hm hst hi hne] at h
    cases h
    rw [hi, if_neg (by decide)]
  · rw [collAccumStoresOneByte tsw s b hb hst hlt hne] at h
    cases h
    rfl

end Span

/-- Settles O37: the record's span by kind, and what a payload byte does to fs by position. -/
theorem eventTimestampsAreTheSpan : Obligations.EventTimestampsAreTheSpan := by
  unfold Obligations.EventTimestampsAreTheSpan
  intro w s t b hb h
  obtain ⟨hend, hstart, hvalid⟩ := record_span_of_beat hb h
  have hfs (hst : s.st = .collect) (hne : b ≠ 0x0F#8) := fs_of_payload_beat hb hst hne h
  refine ⟨hend, fun hk => ?chan, fun hk => ?other, fun hk => ?none, fun hst hne hi => ?first, fun hst hne hi => ?later⟩
  case chan => rw [hstart, if_pos hk]
  case other => rw [hstart, if_neg hk]
  case none => rw [hvalid, hk]; rfl
  case first => rw [hfs hst hne, if_pos hi]
  case later => rw [hfs hst hne, if_neg hi]

end Sys2Proof.Machine

namespace Sys2Proof.Machine

/-! ## The bit-slicer, bit by bit and as a number -/

/-- The number of the bits `f 0, ..., f (n-1)` is `sum_j f(j) * 2^j`. -/
theorem ofBits_eq_sum {n : Nat} (f : Fin n → Bool) : Nat.ofBits f = ∑ j : Fin n, (f j).toNat * 2 ^ j.val := by
  induction n with
  | zero => rfl
  | succ n ih =>
    rw [Nat.ofBits_succ, ih, Fin.sum_univ_succ, Finset.mul_sum, Nat.add_comm]
    simp only [Function.comp_apply, Fin.val_zero, Fin.val_succ, pow_zero, pow_succ', Nat.mul_one, Nat.mul_left_comm]

/-- A bit vector's number is the sum of its bits' weights. -/
theorem toNat_eq_sum_getLsbD {w : Nat} (x : BitVec w) : x.toNat = ∑ j : Fin w, (x.getLsbD j).toNat * 2 ^ j.val := by
  rw [← ofBits_eq_sum fun j : Fin w => x.getLsbD j]
  simp only [← BitVec.testBit_toNat, Nat.ofBits_testBit, Nat.mod_eq_of_lt x.isLt]

/-- The payload stream's number is `sum_k P[k] * 2^(8*k)` (R64, R152). -/
theorem payloadStream_toNat_eq_sum (p : AnalogBytes) :
    (payloadStream p).toNat = ∑ k : Fin 22, p[k].toNat * 2 ^ (8 * k.val) := by
  rw [payloadStream_toNat, vector_toList_eq_ofFn, bytesToNat_ofFn]

/-- Bit `j` of channel `i` is stream bit `B[11*i + j]` (R152). -/
theorem unpack_getLsbD (p : AnalogBytes) (i j : Nat) (hi : i < 16) (hj : j < 11) :
    (unpack p)[i].getLsbD j = (payloadStream p).getLsbD (11 * i + j) := by
  rw [unpack_getElem, BitVec.getLsbD_extractLsb', decide_eq_true hj, Bool.true_and]

/-- Bit `j` of channel `i`, read from the payload's bytes (R151, R152). -/
theorem unpack_getLsbD_byte (p : AnalogBytes) (i j : Nat) (hi : i < 16) (hj : j < 11) :
    (unpack p)[i].getLsbD j = (p[(11 * i + j) / 8]'(by omega)).getLsbD ((11 * i + j) % 8) := by
  rw [unpack_getLsbD p i j hi hj, payloadStream_getLsbD p _ (by omega)]

/-- The stream of a packed payload is the channel bus: packing cuts the bus into bytes (R156). -/
theorem payloadStream_pack (r : Channels) : payloadStream (pack r) = channelBus r := by
  apply BitVec.eq_of_getLsbD_eq
  intro k hk
  rw [payloadStream_getLsbD _ k hk, pack_getElem, BitVec.getLsbD_extractLsb', Nat.div_add_mod,
    decide_eq_true (Nat.mod_lt k (by decide)), Bool.true_and]

/-- Every 16 channels are the slices of their packed payload (R156). -/
theorem unpack_pack (r : Channels) : unpack (pack r) = r := by
  ext i hi j hj
  have hdiv : (11 * i + j) / 11 = i := by omega
  have hmod : (11 * i + j) % 11 = j := by omega
  rw [← BitVec.getLsbD_eq_getElem, ← BitVec.getLsbD_eq_getElem, unpack_getLsbD _ i j hi hj, payloadStream_pack,
    channelBus_getLsbD r _ (by omega)]
  simp only [hdiv, hmod]

/-- Settles O44: the bits are the stream's, the first value is the stream's number shifted and cut, the second sums those
bits, and packing any 16 channels gives a payload that unpacks to them. -/
theorem unpackTakesElevenBitsEach : Obligations.UnpackTakesElevenBitsEach := by
  unfold Obligations.UnpackTakesElevenBitsEach
  refine ⟨payloadStream_getLsbD, fun i hi r => ?occurs,
    fun p i hi => ⟨fun j hj => unpack_getLsbD_byte p i j hi hj, ?slice, ?weights⟩⟩
  case occurs =>
    refine ⟨pack (Vector.replicate 16 r), ?_⟩
    simp only [unpack_pack, Vector.getElem_replicate]
  case slice =>
    rw [unpack_getElem p i hi, BitVec.extractLsb'_toNat, payloadStream_toNat_eq_sum, Nat.shiftRight_eq_div_pow]
  case weights =>
    rw [toNat_eq_sum_getLsbD]
    simp only [unpack_getLsbD_byte p i _ hi (Fin.isLt _)]

/-! ## Scale -/

/-- `r * 1024` for an 11-bit `r` (R155): 21 bits hold it. -/
theorem scaleProduct_le (r : RawChannel) : r.toNat * scaleMul ≤ 2096128 :=
  Nat.mul_le_mul_right scaleMul (Nat.le_of_lt_succ r.isLt)

/-- The quotient of R155: 11 bits hold it. -/
theorem scaleQuotient_le (r : RawChannel) : r.toNat * scaleMul / scaleDiv ≤ 1278 :=
  Nat.div_le_div_right (c := scaleDiv) (scaleProduct_le r)

/-- R155: narrowing to 12 bits loses nothing of the formula's value, which is at most 1278 + 881. -/
theorem scale_toNat (r : RawChannel) : (scale r).toNat = r.toNat * scaleMul / scaleDiv + scaleOfs := by
  have hlt : r.toNat * scaleMul / scaleDiv + scaleOfs < 2 ^ 12 :=
    Nat.lt_of_le_of_lt (Nat.add_le_add_right (scaleQuotient_le r) scaleOfs) (by decide)
  rw [scale, BitVec.toNat_ofNat, Nat.mod_eq_of_lt hlt]

/-- Settles O47: product and quotient are bounded as R155 says, so the narrowed sum is the exact one. -/
theorem scaleFormula : Obligations.ScaleFormula := by
  unfold Obligations.ScaleFormula
  intro r
  refine ⟨scale_toNat r, scaleProduct_le r, scaleQuotient_le r, ?low, ?high, by decide⟩
  case low =>
    rw [scale_toNat]
    exact Nat.le_add_left scaleOfs _
  case high =>
    rw [scale_toNat]
    exact Nat.add_le_add_right (scaleQuotient_le r) scaleOfs

end Sys2Proof.Machine

namespace Sys2Proof.Machine

/-! ## The flags byte and its wires -/

section FlagsByte

variable {tsw : Nat} {s t : Block tsw}

/-- R109, R182: FLGS_DECODE of a byte leaves that byte in `flags_byte`. -/
theorem flagsByte_of_exec_flgsDecode {b : Byte} (h : exec (.flgsDecode b) ⟨tsw, s⟩ = .next ⟨tsw, t⟩) : t.flagsByte = b := by
  obtain ⟨-, -, h⟩ := onReachableEdge_next.mp h
  cases h
  rfl

/-- R105: COLL_ACCUM's record is NONE, so `flags_byte` holds; a store outside the buffer gives no next state. -/
theorem flagsByte_of_exec_collAccum {b : Byte} (h : exec (.collAccum b) ⟨tsw, s⟩ = .next ⟨tsw, t⟩) :
    t.flagsByte = s.flagsByte := by
  obtain ⟨-, -, h⟩ := onReachableEdge_next.mp h
  dsimp only at h
  split at h <;> cases h
  rfl

/-- R182: no class but FLGS_DECODE and no idle edge changes `flags_byte`. Every other class commits a record that is no
FLAG. -/
theorem flagsByte_of_exec {i : Instr} (hdecode : ∀ b, i ≠ .flgsDecode b) (hbeat : i ≠ .beat) (hreset : ∀ v, i ≠ .reset v)
    (h : exec i ⟨tsw, s⟩ = .next ⟨tsw, t⟩) : t.flagsByte = s.flagsByte := by
  cases i with
  | flgsDecode b => exact absurd rfl (hdecode b)
  | beat => exact absurd rfl hbeat
  | reset v => exact absurd rfl (hreset v)
  | collAccum b => exact flagsByte_of_exec_collAccum h
  | idleStart | idleSkip b | collRestart | collChanSplit b | collChanUnified b | flgsRestart | awstStop | awstDesync b
  | idleEdge =>
    obtain ⟨-, -, h⟩ := onReachableEdge_next.mp h
    cases h
    rfl

end FlagsByte

/-- Settles O40: the wires are functions of `flags_byte`, which FLGS_DECODE sets to its byte and every other class and an
idle edge hold. -/
theorem flagWiresHoldBetweenDecodes : Obligations.FlagWiresHoldBetweenDecodes := by
  unfold Obligations.FlagWiresHoldBetweenDecodes
  refine ⟨fun w s t b h => ?decode, fun w s t i hdecode hbeat hreset h => ?hold, fun w m => Block.reset_flagsByte m⟩
  case decode =>
    have hf : t.flagsByte = b := flagsByte_of_exec_flgsDecode h
    exact ⟨hf, congrArg flagCh17 hf, congrArg flagCh18 hf, congrArg flagFrameLost hf, congrArg flagFailsafe hf⟩
  case hold =>
    have hf : t.flagsByte = s.flagsByte := flagsByte_of_exec hdecode hbeat hreset h
    exact ⟨congrArg flagCh17 hf, congrArg flagCh18 hf, congrArg flagFrameLost hf, congrArg flagFailsafe hf⟩

/-! ## Runs in unified mode -/

section Runs

variable {tsw : Nat} {s t : Block tsw}

/-- The payload beside an event kind is of that kind (R34). -/
@[simp] theorem eventBody_kind (s : Block tsw) : s.eventBody.kind = s.evKind := by
  unfold Block.eventBody
  cases s.evKind <;> rfl

/-- What a consumer samples is of the kind the output register shows (R34). -/
theorem kind_of_mem_samples {e : Sample} (he : e ∈ (⟨tsw, s⟩ : State).samples) : e.event.body.kind = s.evKind := by
  rw [samples_block, Block.sampled] at he
  split_ifs at he
  · obtain rfl : e = ⟨tsw, ⟨s.eventBody, s.evErr, s.evTsStart, s.evTsEnd⟩⟩ := by simpa using he
    exact eventBody_kind s
  · exact absurd he List.not_mem_nil

/-- A run of `n + 1` edges is one step and a run of `n` edges, and its events are that step's and then that run's (R69). -/
theorem runEvents_succ_eq_some {n : Nat} {s u : State} {evs : List Sample} (h : runEvents (n + 1) s = some (evs, u)) :
    ∃ t evs', step s = .next t ∧ runEvents n t = some (evs', u) ∧ evs = t.samples ++ evs' := by
  cases hstep : step s with
  | next t =>
    rw [runEvents_succ hstep, Option.map_eq_some_iff] at h
    obtain ⟨⟨evs', u'⟩, hrun, heq⟩ := h
    cases heq
    exact ⟨t, evs', rfl, hrun, rfl⟩
  | fault r => simp [runEvents, hstep] at h
  | refused r => simp [runEvents, hstep] at h

/-- What every step keeps holds after every run, and what holds of every step's samples holds of the run's events. -/
theorem runEvents_invariant {P : Block tsw → Prop} {Q : Sample → Prop}
    (hstep : ∀ s t : Block tsw, P s → step ⟨tsw, s⟩ = .next ⟨tsw, t⟩ →
      P t ∧ ∀ e ∈ (⟨tsw, t⟩ : State).samples, Q e)
    (n : Nat) {evs : List Sample} (hs : P s) (h : runEvents n ⟨tsw, s⟩ = some (evs, ⟨tsw, t⟩)) :
    P t ∧ ∀ e ∈ evs, Q e := by
  induction n generalizing s evs with
  | zero =>
    cases h
    exact ⟨hs, fun e he => absurd he List.not_mem_nil⟩
  | succ n ih =>
    obtain ⟨_, evs', hnext, hrun, rfl⟩ := runEvents_succ_eq_some h
    obtain ⟨u, rfl, -⟩ := step_next hnext
    obtain ⟨hu, hsamples⟩ := hstep s u hs hnext
    obtain ⟨ht, hevs⟩ := ih hu hrun
    exact ⟨ht, fun e he => (List.mem_append.mp he).elim (hsamples e) (hevs e)⟩

/-- R186: a step in unified mode with `flags_byte` 0 stays so and reports no FLAG. FLAGS, the state of FLGS_DECODE, is split
mode's (R39). -/
theorem step_unified (hm : s.mode = .unified) (hf : s.flagsByte = 0#8) (h : step ⟨tsw, s⟩ = .next ⟨tsw, t⟩) :
    t.mode = .unified ∧ t.flagsByte = 0#8 ∧ t.evKind ≠ .flag := by
  cases step_case h with
  | flgsDecode b hb hst hne =>
    have hsplit : s.mode = .split := (reachable_flags hb.reachable hst).1
    exact absurd (hm.symm.trans hsplit) nofun
  | reset hr => exact ⟨hm, rfl, nofun⟩
  | idleEdge | idleStart | idleSkip | collRestart | collChanSplit | collChanUnified | collAccum | flgsRestart | awstStop
  | awstDesync => exact ⟨hm, hf, nofun⟩

end Runs

/-- Settles O42: unified mode with `flags_byte` 0 is kept by every edge and shows no FLAG to the consumer. -/
theorem unifiedModeNeverFlags : Obligations.UnifiedModeNeverFlags := by
  unfold Obligations.UnifiedModeNeverFlags
  intro n w s t evs hm hf hrun
  have hstep (s t : Block w) (hs : s.mode = .unified ∧ s.flagsByte = 0#8) (h : step ⟨w, s⟩ = .next ⟨w, t⟩) :
      (t.mode = .unified ∧ t.flagsByte = 0#8) ∧
        ∀ e ∈ (⟨w, t⟩ : State).samples, e.event.body.kind ≠ .flag := by
    obtain ⟨hmode, hflags, hkind⟩ := step_unified hs.1 hs.2 h
    exact ⟨⟨hmode, hflags⟩, fun e he => kind_of_mem_samples he ▸ hkind⟩
  obtain ⟨⟨-, ht⟩, hevs⟩ := runEvents_invariant hstep n ⟨hm, hf⟩ hrun
  exact ⟨ht, congrArg flagCh17 ht, congrArg flagCh18 ht, congrArg flagFrameLost ht, congrArg flagFailsafe ht, hevs⟩

/-! ## The flag labels -/

/-- A list of (bit, label) pairs gives the first pair's label if its bit is set, then the rest's labels. -/
theorem labelsOfBits_cons (f : Byte) (k : Nat) (l : FlagLabel) (rest : List (Nat × FlagLabel)) :
    ((k, l) :: rest).filterMap (fun p => if f.getLsbD p.1 then some p.2 else none) =
      (if f.getLsbD k then [l] else []) ++ rest.filterMap fun p => if f.getLsbD p.1 then some p.2 else none := by
  rw [List.filterMap_cons]
  cases f.getLsbD k <;> rfl

/-- R183: equal wires give equal labels. -/
theorem labels_congr {f g : Byte} (h17 : flagCh17 f = flagCh17 g) (h18 : flagCh18 f = flagCh18 g)
    (hlost : flagFrameLost f = flagFrameLost g) (hfail : flagFailsafe f = flagFailsafe g) : labels f = labels g := by
  rw [labels, h17, h18, hlost, hfail, labels]

/-- Settles O41: `labels` appends one label per wire from bit 3 down to bit 0, and reads only the wires; the named lists
are evaluated. -/
theorem flagLabelsHighestBitFirst : Obligations.FlagLabelsHighestBitFirst := by
  unfold Obligations.FlagLabelsHighestBitFirst
  refine ⟨fun f => ?ordered, fun f g h17 h18 hlost hfail => labels_congr h17 h18 hlost hfail, rfl, rfl, rfl, rfl, rfl⟩
  case ordered =>
    rw [labels, List.append_assoc, List.append_assoc, labelsOfBits_cons, labelsOfBits_cons, labelsOfBits_cons,
      labelsOfBits_cons, List.filterMap_nil, List.append_nil]
    rfl

end Sys2Proof.Machine

namespace Sys2Proof.Machine

/-! ## The two errors and their recovery -/

section Errors

variable {tsw : Nat} {s t : Block tsw} {b : Byte}

/-- A beat presents one byte. -/
theorem byte_eq_of_beats {c : Byte} (hb : BeatOf s b) (hc : BeatOf s c) : b = c := hb.inByte.symm.trans hc.inByte

/-- R201: the error a beat reports, by its byte and the state it meets. In AWAIT_STOP a start-sync byte falls under
BadTerminator alone. -/
theorem evErr_of_beat (hb : BeatOf s b) (h : step ⟨tsw, s⟩ = .next ⟨tsw, t⟩) :
    t.evErr = if b = syncStart ∧ (s.st = .collect ∨ s.st = .flags) then .prematureStart
      else if b ≠ syncStop ∧ s.st = .awaitStop then .badTerminator else .none := by
  cases step_case h with
  | reset hr => exact absurd (hb.rst.symm.trans hr) Bool.false_ne_true
  | idleEdge hr hv hs => exact absurd (hv.symm.trans hb.inValid) Bool.false_ne_true
  | collRestart hc hst | flgsRestart hc hst => simp [byte_eq_of_beats hb hc, hst]
  | idleStart hc hst | awstStop hc hst => simp [byte_eq_of_beats hb hc, hst]
  | awstDesync c hc hst hne => simp [byte_eq_of_beats hb hc, hst, hne]
  | idleSkip c hc hst hne | collChanSplit c hc hst hne hm hi | collChanUnified c hc hst hne hm hi
  | collAccum c hc hst hne h1 hi | flgsDecode c hc hst hne => simp [byte_eq_of_beats hb hc, hst, hne]

/-- R201: PrematureStart exactly at a start-sync byte in COLLECT or FLAGS. -/
theorem evErr_prematureStart_iff (hb : BeatOf s b) (h : step ⟨tsw, s⟩ = .next ⟨tsw, t⟩) :
    t.evErr = .prematureStart ↔ b = syncStart ∧ (s.st = .collect ∨ s.st = .flags) := by
  rw [evErr_of_beat hb h]
  split_ifs with hstart hstop
  · exact iff_of_true rfl hstart
  · exact iff_of_false nofun hstart
  · exact iff_of_false nofun hstart

/-- R201: BadTerminator exactly at a byte other than the stop-sync byte in AWAIT_STOP. -/
theorem evErr_badTerminator_iff (hb : BeatOf s b) (h : step ⟨tsw, s⟩ = .next ⟨tsw, t⟩) :
    t.evErr = .badTerminator ↔ b ≠ syncStop ∧ s.st = .awaitStop := by
  rw [evErr_of_beat hb h]
  split_ifs with hstart hstop
  · exact iff_of_false nofun fun hstop => by simp [hstop.2] at hstart
  · exact iff_of_true rfl hstop
  · exact iff_of_false nofun hstop

/-- R202: a PrematureStart is one of the two RESTART classes, and its edge is the recovery `recoverPrematureStart`. -/
theorem recovery_of_prematureStart (hb : BeatOf s b) (h : step ⟨tsw, s⟩ = .next ⟨tsw, t⟩)
    (he : t.evErr = .prematureStart) :
    (decodeDw s.decodeWord = .collRestart ∨ decodeDw s.decodeWord = .flgsRestart) ∧
      t = (updateOutputs ⟨.start, .prematureStart, s.ports.inTsStart, s.ports.inTsEnd⟩ (startFrame s)).nextEdge := by
  obtain ⟨rfl, hst | hst⟩ := (evErr_prematureStart_iff hb h).mp he
  · have hd : decodeDw s.decodeWord = .collRestart := (class_of_beat_collect hb hst).trans (if_pos rfl)
    rw [step_of_class hb hd, collRestartDropsTheFrame tsw s hb hst] at h
    cases h
    exact ⟨.inl hd, rfl⟩
  · have hd : decodeDw s.decodeWord = .flgsRestart := (class_of_beat_flags hb hst).trans (if_pos rfl)
    rw [step_of_class hb hd, flgsRestartDropsTheFrame tsw s hb hst] at h
    cases h
    exact ⟨.inr hd, rfl⟩

/-- R203: a BadTerminator is AWST_DESYNC, and its edge is the recovery `recoverBadTerminator`. -/
theorem recovery_of_badTerminator (hb : BeatOf s b) (h : step ⟨tsw, s⟩ = .next ⟨tsw, t⟩)
    (he : t.evErr = .badTerminator) :
    decodeDw s.decodeWord = .awstDesync b ∧
      t = (updateOutputs ⟨.desync, .badTerminator, s.ports.inTsStart, s.ports.inTsEnd⟩ (clearFrame s)).nextEdge := by
  obtain ⟨hne, hst⟩ := (evErr_badTerminator_iff hb h).mp he
  have hd : decodeDw s.decodeWord = .awstDesync b := (class_of_beat_awaitStop hb hst).trans (if_neg hne)
  rw [step_of_class hb hd, awstDesyncDropsBackToIdle tsw s b hb hst hne] at h
  cases h
  exact ⟨hd, rfl⟩

/-- R70: every entry of a cleared buffer reads 0. -/
theorem bufRead_nil {k : Nat} (hk : k < bufEntries) : bufRead [] k = some 0#8 := bufRead_of_lt hk

/-- R202, R203: both recoveries report the byte's own timestamps, clear the frame's registers and touch no other output. -/
theorem recovery_frame (hb : BeatOf s b) (h : step ⟨tsw, s⟩ = .next ⟨tsw, t⟩) (he : t.evErr ≠ .none) :
    t.evTsStart = s.ports.inTsStart ∧ t.evTsEnd = s.ports.inTsEnd ∧ t.fs = 0#tsw ∧ t.buf = [] ∧ t.chRaw = s.chRaw ∧
      t.flagsByte = s.flagsByte := by
  cases herr : t.evErr with
  | none => exact absurd herr he
  | prematureStart =>
    obtain ⟨-, rfl⟩ := recovery_of_prematureStart hb h herr
    exact ⟨rfl, rfl, rfl, rfl, rfl, rfl⟩
  | badTerminator =>
    obtain ⟨-, rfl⟩ := recovery_of_badTerminator hb h herr
    exact ⟨rfl, rfl, rfl, rfl, rfl, rfl⟩

/-- R201: any byte but a start sync is skipped in IDLE, reported as NONE and without an error. -/
theorem idle_skip_of_beat (hb : BeatOf s b) (hst : s.st = .idle) (hne : b ≠ syncStart)
    (h : step ⟨tsw, s⟩ = .next ⟨tsw, t⟩) :
    decodeDw s.decodeWord = .idleSkip b ∧ t.evKind = .none ∧ t.evErr = .none := by
  have hd : decodeDw s.decodeWord = .idleSkip b := (class_of_beat_idle hb hst).trans (if_neg hne)
  rw [step_of_class hb hd, idleSkipChangesNoCoreRegister tsw s b hb hst hne] at h
  cases h
  exact ⟨hd, rfl, rfl⟩

end Errors

/-- Settles O38: the error is a function of the byte and the state, each error is a recovery in the same edge, and what the
error reports is read off that recovery's next state. -/
theorem errorsReportAndRecover : Obligations.ErrorsReportAndRecover := by
  unfold Obligations.ErrorsReportAndRecover
  intro w s t b hb h
  refine ⟨evErr_prematureStart_iff hb h, evErr_badTerminator_iff hb h, fun hne hst => idle_skip_of_beat hb hst hne h,
    fun he => ?premature, fun he => ?terminator, fun he => ?frame⟩
  case premature =>
    obtain ⟨hclass, rfl⟩ := recovery_of_prematureStart hb h he
    exact ⟨hclass, rfl, rfl, rfl, rfl⟩
  case terminator =>
    obtain ⟨hclass, rfl⟩ := recovery_of_badTerminator hb h he
    exact ⟨hclass, rfl, rfl, rfl, rfl⟩
  case frame =>
    obtain ⟨hstart, hend, hfs, hbuf, hraw, hflags⟩ := recovery_frame hb h he
    exact ⟨hstart, hend, hfs, fun k hk => hbuf ▸ bufRead_nil hk, hraw, hflags⟩

end Sys2Proof.Machine

namespace Sys2Proof.Machine

/-! ## Reset edges and idle edges -/

/-- Settles O2: a reset edge's step is RESET, whatever in_valid is, and its whole answer is `Block.reset` of the block's MODE
with the edge's inputs used up; no register is consulted, so no reachable triple is needed. -/
theorem resetEdgeClearsEveryRegister : Obligations.ResetEdgeClearsEveryRegister := by
  unfold Obligations.ResetEdgeClearsEveryRegister
  rintro w s _ hrst rfl
  calc exec (.reset s.ports.inValid) ⟨w, s⟩
      = step ⟨w, s⟩ := (step_of_rst hrst).symm
    _ = .next ⟨w, { Block.reset s.mode w with inputs := s.inputs.tail }⟩ := step_rst_eq hrst

/-- Settles O3: an idle edge's step is IDLE_EDGE, and in a reachable triple it takes the branch that completes. -/
theorem idleEdgeHoldsTheCore : Obligations.IdleEdgeHoldsTheCore := by
  unfold Obligations.IdleEdgeHoldsTheCore
  intro w s hreachable hrst hvalid
  calc exec .idleEdge ⟨w, s⟩
      = step ⟨w, s⟩ := (step_of_idle hrst hvalid).symm
    _ = .next ⟨w, { s with evValid := false, evKind := .none, evErr := .none, inputs := s.inputs.tail }⟩ :=
      (step_idle_eq hrst hvalid).trans (if_pos hreachable)

end Sys2Proof.Machine

namespace Sys2Proof.Machine

/-! ## The encoder and the decoder are inverse -/

/-- R81: the decoder reads back the instruction that the encoder wrote, at every mode and position its row admits. A byte of
the operand line keeps the class out of the sync rows above it, and COLL_ACCUM's position out of the two CHAN rows. -/
theorem decode_encode {i : Instr} {m : Mode} {idx : BitVec 5} (hwf : i.wellFormed = true) (hadmits : i.admits m idx = true) :
    decode (encode m idx i) = i := by
  cases i with
  | idleStart => exact (decodeDw_idle m idx _).trans (if_pos rfl)
  | idleSkip b => exact (decodeDw_idle m idx b).trans (if_neg (bne_iff_ne.mp hwf))
  | collRestart => exact (decodeDw_collect m idx _).trans (if_pos rfl)
  | collChanSplit b =>
    exact (decodeDw_collect ..).trans ((if_neg (bne_iff_ne.mp hwf)).trans (if_pos ⟨rfl, rfl⟩))
  | collChanUnified b =>
    exact (decodeDw_collect ..).trans ((if_neg (bne_iff_ne.mp hwf)).trans ((if_neg (by decide)).trans (if_pos ⟨rfl, rfl⟩)))
  | collAccum b =>
    have hpos : idx.toNat ≠ cap m := bne_iff_ne.mp hadmits
    have hsplit : ¬ (m = .split ∧ idx = 22#5) := by rintro ⟨rfl, rfl⟩; exact hpos rfl
    have hunified : ¬ (m = .unified ∧ idx = 23#5) := by rintro ⟨rfl, rfl⟩; exact hpos rfl
    exact (decodeDw_collect ..).trans
      ((if_neg (bne_iff_ne.mp hwf)).trans ((if_neg hsplit).trans (if_neg hunified)))
  | flgsRestart => exact (decodeDw_flags m idx _).trans (if_pos rfl)
  | flgsDecode b => exact (decodeDw_flags m idx b).trans (if_neg (bne_iff_ne.mp hwf))
  | awstStop => exact (decodeDw_awaitStop m idx _).trans (if_pos rfl)
  | awstDesync b => exact (decodeDw_awaitStop m idx b).trans (if_neg (bne_iff_ne.mp hwf))
  | reset v => exact decodeCw_reset v
  | beat => exact decodeCw_beat
  | idleEdge => exact decodeCw_idleEdge

/-- R80: the word of a class at a mode and position its row admits holds that mode and position. -/
theorem encode_eq_packDw {i : Instr} {m : Mode} {idx : BitVec 5} {w : BitVec 16} (hadmits : i.admits m idx = true)
    (hw : encode m idx i = .dw w) : ∃ st b, w = packDw m st idx b := by
  cases i with
  | collChanSplit b =>
    obtain ⟨rfl, rfl⟩ : m = .split ∧ idx = 22#5 := by simpa [Instr.admits] using hadmits
    cases hw
    exact ⟨_, _, rfl⟩
  | collChanUnified b =>
    obtain ⟨rfl, rfl⟩ : m = .unified ∧ idx = 23#5 := by simpa [Instr.admits] using hadmits
    cases hw
    exact ⟨_, _, rfl⟩
  | reset v | beat | idleEdge => cases hw
  | idleStart | idleSkip b | collRestart | collAccum b | flgsRestart | flgsDecode b | awstStop | awstDesync b =>
    cases hw
    exact ⟨_, _, rfl⟩

/-- Settles O10: the decoder reads the instruction back, the word is packed from the mode and position, and its s field is
the state of the class it decodes to. -/
theorem decodeOfEncode : Obligations.DecodeOfEncode := by
  unfold Obligations.DecodeOfEncode
  intro i m idx hwf hadmits
  have hdecode : decode (encode m idx i) = i := decode_encode hwf hadmits
  refine ⟨hdecode, fun w hw => ?_⟩
  have hstate : i.state? = some (dwSt w) := by
    rw [hw] at hdecode
    exact hdecode ▸ decodeDw_state w
  obtain ⟨st, b, rfl⟩ := encode_eq_packDw hadmits hw
  exact ⟨dwMode_packDw .., dwIdx_packDw .., hstate⟩

section Words

variable (m : Mode) (st : St) (idx : BitVec 5) (b : Byte)

/-- R81: the encoder writes back the word it is given the class, the mode and the position of. A row that fixes the byte or
the position is met only where the word has that byte or position. -/
theorem encode_decodeDw : encode m idx (decodeDw (packDw m st idx b)) = .dw (packDw m st idx b) := by
  cases st with
  | idle => rw [decodeDw_idle]; split_ifs with hb <;> simp [encode, hb]
  | collect =>
    rw [decodeDw_collect]
    split_ifs with hb hsplit hunified
    · simp [encode, hb]
    · simp [encode, hsplit]
    · simp [encode, hunified]
    · rfl
  | flags => rw [decodeDw_flags]; split_ifs with hb <;> simp [encode, hb]
  | awaitStop => rw [decodeDw_awaitStop]; split_ifs with hb <;> simp [encode, hb]

/-- R102 to R111: a class that carries its byte is selected only by a byte of its operand line. -/
theorem wellFormed_decodeDw : (decodeDw (packDw m st idx b)).wellFormed = true := by
  cases st with
  | idle => rw [decodeDw_idle]; split_ifs with hb <;> simp [Instr.wellFormed, hb]
  | collect => rw [decodeDw_collect]; split_ifs with hb <;> simp [Instr.wellFormed, hb]
  | flags => rw [decodeDw_flags]; split_ifs with hb <;> simp [Instr.wellFormed, hb]
  | awaitStop => rw [decodeDw_awaitStop]; split_ifs with hb <;> simp [Instr.wellFormed, hb]

/-- R81: the CHAN rows are selected only at their own mode and position, COLL_ACCUM nowhere else. -/
theorem admits_decodeDw : (decodeDw (packDw m st idx b)).admits m idx = true := by
  cases st with
  | idle => rw [decodeDw_idle]; split_ifs <;> rfl
  | collect =>
    rw [decodeDw_collect]
    split_ifs with hb hsplit hunified
    · rfl
    · simp [Instr.admits, hsplit]
    · simp [Instr.admits, hunified]
    · refine bne_iff_ne.mpr fun hcap => ?_
      cases m with
      | split => exact hsplit ⟨rfl, BitVec.eq_of_toNat_eq hcap⟩
      | unified => exact hunified ⟨rfl, BitVec.eq_of_toNat_eq hcap⟩
  | flags => rw [decodeDw_flags]; split_ifs <;> rfl
  | awaitStop => rw [decodeDw_awaitStop]; split_ifs <;> rfl

end Words

/-- Settles O11: a decode word is the packing of its fields, and there the three facts are the decoder's, class by class; the
four control words are the four pairs of bits. -/
theorem encodeOfDecode : Obligations.EncodeOfDecode := by
  unfold Obligations.EncodeOfDecode
  refine ⟨fun w => ?decodeWord, fun m idx w => ?controlWord⟩
  case decodeWord =>
    have hfields := packDw_fields w
    generalize dwMode w = m, dwSt w = st, dwIdx w = idx, dwByte w = b at hfields ⊢
    subst hfields
    exact ⟨encode_decodeDw m st idx b, wellFormed_decodeDw m st idx b, admits_decodeDw m st idx b⟩
  case controlWord =>
    rw [← packCw_bits w, decodeCw_packCw]
    cases w.getLsbD 1 <;> cases w.getLsbD 0 <;> exact ⟨rfl, rfl⟩

end Sys2Proof.Machine

namespace Sys2Proof.Machine

/-! ## The invariants of reachable states -/

/-- What an event record owes the invariants of a block in mode `m` (R41): which errors go with which kinds, and no FLAG
in unified mode. -/
def Event.Consistent {tsw : Nat} (m : Mode) (e : Event tsw) : Prop :=
  (e.err = .prematureStart → e.body.kind = .start) ∧ (e.err = .badTerminator ↔ e.body.kind = .desync) ∧
    (m = .unified → e.body.kind ≠ .flag)

section Invariants

variable {tsw : Nat} {s : Block tsw}

/-- A record without an error, neither DESYNC nor FLAG, is consistent in both modes (R41). -/
theorem Event.consistent_of_no_err {m : Mode} {e : Event tsw} (herr : e.err = .none) (hdesync : e.body.kind ≠ .desync)
    (hflag : e.body.kind ≠ .flag) : e.Consistent m :=
  ⟨fun h => (nomatch herr.symm.trans h), iff_of_false (fun h => nomatch herr.symm.trans h) hdesync, fun _ => hflag⟩

/-- R41: the end of a beat keeps the invariants its core registers meet, if its record is consistent. Only a FLAG record
writes `flags_byte`, and unified mode has none. -/
theorem Inv.commit {e : Event tsw} (hcore : Inv s) (he : e.Consistent s.mode) : Inv (updateOutputs e s).nextEdge where
  bufWf := hcore.bufWf
  idle := hcore.idle
  collect := hcore.collect
  flags := hcore.flags
  awaitStop := hcore.awaitStop
  valid := bne_iff_ne
  premature := he.1
  badTerminator := he.2.1
  unified := fun hm => by
    have hflag : e.body.kind ≠ .flag := he.2.2 hm
    refine ⟨hflag, Eq.trans ?_ (hcore.unified hm).2⟩
    show e.body.flagsOr s.flagsByte = s.flagsByte
    cases hbody : e.body with
    | flag f => rw [hbody] at hflag; exact absurd rfl hflag
    | none | start | chan r | stop | desync => rfl

/-- R37, R70: an opened frame has taken nothing and its buffer is clear. -/
theorem Inv.startFrame (h : Inv s) : Inv (startFrame s) :=
  { h with
    bufWf := wf_nil
    idle := nofun
    collect := fun _ => ⟨le_rfl, by cases hm : s.mode <;> simp [hm, cap], rfl, fun _ _ => rfl, fun _ => rfl⟩
    flags := nofun
    awaitStop := nofun }

/-- R37, R100: the Idle baseline. -/
theorem Inv.clearFrame (h : Inv s) : Inv (clearFrame s) :=
  { h with
    bufWf := wf_nil
    idle := fun _ => ⟨rfl, rfl, fun _ => rfl⟩
    collect := nofun
    flags := nofun
    awaitStop := nofun }

/-- R31: below CAP idx advances without wrapping. -/
theorem idx_succ_toNat (hi : s.idx.toNat < cap s.mode) : (s.idx + 1#5).toNat = s.idx.toNat + 1 := by
  have hcap : cap s.mode ≤ 23 := by cases s.mode <;> decide
  refine (BitVec.toNat_add ..).trans (Nat.mod_eq_of_lt ?_)
  show s.idx.toNat + 1 < 32
  omega

/-- R27: in COLLECT the bytes before idx are taken. -/
theorem len_of_collect (hst : s.st = .collect) : s.len = s.idx.toNat - 1 := by rw [Block.len, hst]

/-- R38: a payload byte below CAP fills the entry that becomes the last of `len`, and takes the frame past position 1. -/
theorem Inv.accum (h : Inv s) (hst : s.st = .collect) (hi : s.idx.toNat < cap s.mode) (t0 : Timestamp tsw) (b : Byte) :
    Inv { s with
      fs := if s.idx = 1#5 then t0 else s.fs
      buf := s.buf.put (s.idx.toNat - 1) b
      idx := s.idx + 1#5 } := by
  obtain ⟨h1, -, hlen, hclear, -⟩ := h.collect hst
  have hcap : cap s.mode ≤ 23 := by cases s.mode <;> decide
  have hidx := idx_succ_toNat hi
  have hnext : s.idx + 1#5 ≠ 1#5 := fun heq => by
    have : s.idx.toNat + 1 = 1 := hidx.symm.trans (congrArg BitVec.toNat heq)
    omega
  have hentry : s.idx.toNat - 1 < bufEntries := by unfold bufEntries; omega
  refine { h with
    bufWf := put_wf h.bufWf hentry b
    idle := fun hst' => nomatch hst.symm.trans hst'
    collect := fun hst' => ⟨?_, ?_, len_of_collect hst', fun k hk => ?_, fun heq => absurd heq hnext⟩
    flags := fun hst' => nomatch hst.symm.trans hst'
    awaitStop := fun hst' => nomatch hst.symm.trans hst' }
  · rw [hidx]; omega
  · rw [hidx]; exact hi
  · rw [len_of_collect hst'] at hk
    change (s.idx + 1#5).toNat - 1 ≤ k at hk
    rw [get_put h.bufWf, if_neg (by omega)]
    exact hclear k (by omega)

/-- R39: the last analog byte fills entry 21, and split mode's entry 22 stays 0. -/
theorem Inv.chanSplit (h : Inv s) (hst : s.st = .collect) (hm : s.mode = .split) (hi : s.idx = 22#5) (b : Byte) :
    Inv { s with buf := s.buf.put 21 b, st := .flags, idx := 23#5 } := by
  obtain ⟨-, -, hlen, hclear, -⟩ := h.collect hst
  refine { h with
    bufWf := put_wf h.bufWf (by decide) b
    idle := nofun
    collect := nofun
    flags := fun _ => ⟨hm, rfl, rfl, fun k hk => ?_⟩
    awaitStop := nofun }
  rw [get_put h.bufWf, if_neg (by omega)]
  refine hclear k ?_
  rw [hlen, hi]
  exact Nat.le_of_succ_le hk

/-- R40: unified mode's last payload byte fills the last entry there is. -/
theorem Inv.chanUnified (h : Inv s) (hm : s.mode = .unified) (b : Byte) :
    Inv { s with buf := s.buf.put 22 b, st := .awaitStop, idx := 24#5 } := by
  refine { h with
    bufWf := put_wf h.bufWf (by decide) b
    idle := nofun
    collect := nofun
    flags := nofun
    awaitStop := fun _ => ⟨rfl, rfl, fun k hk => ?_⟩ }
  have hentries : cap .unified ≤ k := (congrArg cap hm).ge.trans hk
  exact get_of_ge (put_wf h.bufWf (by decide) b) hentries

/-- R40: the flags byte is not stored, so split mode's buffer stays as the CHAN byte left it. -/
theorem Inv.flagsTaken (h : Inv s) (hst : s.st = .flags) : Inv { s with st := .awaitStop, idx := 24#5 } := by
  obtain ⟨hm, -, -, hclear⟩ := h.flags hst
  refine { h with
    idle := nofun
    collect := nofun
    flags := nofun
    awaitStop := fun _ => ⟨rfl, rfl, fun k hk => hclear k ?_⟩ }
  show cap .split ≤ k
  exact (congrArg cap hm).ge.trans hk

/-- R237: an idle edge holds the core and shows NONE without an error. -/
theorem Inv.idleEdge (h : Inv s) :
    Inv { s with evValid := false, evKind := .none, evErr := .none, inputs := s.inputs.tail } :=
  { h with
    valid := by simp
    premature := nofun
    badTerminator := iff_of_false nofun nofun
    unified := fun hm => ⟨nofun, (h.unified hm).2⟩ }

/-- R230, R231: the reset values meet the invariants, whatever will be presented. -/
theorem inv_reset (m : Mode) (ps : List (Ports tsw)) : Inv { Block.reset m tsw with inputs := ps } where
  bufWf := wf_nil
  idle := fun _ => ⟨rfl, rfl, fun _ => rfl⟩
  collect := nofun
  flags := nofun
  awaitStop := nofun
  valid := by simp
  premature := nofun
  badTerminator := iff_of_false nofun nofun
  unified := fun _ => ⟨nofun, rfl⟩

/-- R37 to R41: each way a step can go commits a consistent record over core registers that meet the invariants. -/
theorem Inv.stepCase {t : Block tsw} (h : Inv s) (hstep : StepCase s t) : Inv t := by
  cases hstep with
  | reset hr => exact inv_reset s.mode s.inputs.tail
  | idleEdge hr hv hs => exact h.idleEdge
  | idleStart hb hst => exact h.startFrame.commit (Event.consistent_of_no_err rfl nofun nofun)
  | idleSkip b hb hst hne => exact h.commit (Event.consistent_of_no_err rfl nofun nofun)
  | collRestart hb hst | flgsRestart hb hst =>
    exact h.startFrame.commit ⟨fun _ => rfl, iff_of_false nofun nofun, fun _ => nofun⟩
  | collChanSplit b hb hst hne hm hi =>
    exact (h.chanSplit hst hm hi b).commit (Event.consistent_of_no_err rfl nofun nofun)
  | collChanUnified b hb hst hne hm hi =>
    exact (h.chanUnified hm b).commit (Event.consistent_of_no_err rfl nofun nofun)
  | collAccum b hb hst hne h1 hi =>
    exact (h.accum hst hi _ b).commit (Event.consistent_of_no_err rfl nofun nofun)
  | flgsDecode b hb hst hne =>
    have hsplit : s.mode = .split := (h.flags hst).1
    exact (h.flagsTaken hst).commit ⟨nofun, iff_of_false nofun nofun, fun hm => nomatch hsplit.symm.trans hm⟩
  | awstStop hb hst =>
    exact h.clearFrame.commit (Event.consistent_of_no_err rfl nofun nofun)
  | awstDesync b hb hst hne =>
    exact h.clearFrame.commit ⟨nofun, iff_of_true rfl rfl, fun _ => nofun⟩

end Invariants

/-- Settles O50: the invariants are inductive, case by case of the step. -/
theorem stepKeepsInvariant : Obligations.StepKeepsInvariant := by
  unfold Obligations.StepKeepsInvariant
  intro w s t hinv hstep
  exact hinv.stepCase (step_case hstep)

/-- Settles O51: `State.reset` is the reset state of one mode and width with nothing presented. -/
theorem resetMeetsInvariant : Obligations.ResetMeetsInvariant := by
  unfold Obligations.ResetMeetsInvariant
  exact ⟨inv_reset .split [], fun w m ps => inv_reset m ps⟩

end Sys2Proof.Machine

namespace Sys2Proof.Machine

/-! ## When a step completes, and where it leads -/

section Completion

variable {tsw : Nat} {s t : Block tsw} {b : Byte}

/-- R106: at split mode's last payload position a payload byte is a CHAN beat. -/
theorem class_of_beat_chanSplit (hb : BeatOf s b) (hst : s.st = .collect) (hne : b ≠ syncStart) (hm : s.mode = .split)
    (hi : s.idx = 22#5) : decodeDw s.decodeWord = .collChanSplit b := by
  rw [class_of_beat_collect hb hst, if_neg hne, if_pos ⟨hm, hi⟩]

/-- R107: at unified mode's last payload position a payload byte is a CHAN beat. -/
theorem class_of_beat_chanUnified (hb : BeatOf s b) (hst : s.st = .collect) (hne : b ≠ syncStart)
    (hm : s.mode = .unified) (hi : s.idx = 23#5) : decodeDw s.decodeWord = .collChanUnified b := by
  rw [class_of_beat_collect hb hst, if_neg hne, if_neg (by simp [hm]), if_pos ⟨hm, hi⟩]

/-- R87: every step that completes leads to a reachable triple. -/
theorem StepCase.reachable (h : StepCase s t) : t.reachable = true := by
  cases h with
  | reset hr => rfl
  | idleEdge hr hv hs => exact hs
  | idleSkip b hb hst hne => exact hb.reachable
  | collAccum b hb hst hne h1 hi =>
    have hidx := idx_succ_toNat hi
    simpa [Block.reachable, reachableTriple, hst, hidx] using hi
  | collChanSplit b hb hst hne hm hi => simp [Block.reachable, reachableTriple, hm, flagsPos]
  | idleStart hb hst | collRestart hb hst | flgsRestart hb hst =>
    cases hm : s.mode <;> simp [Block.reachable, reachableTriple, hm, cap]
  | collChanUnified b hb hst hne hm hi => rfl
  | flgsDecode b hb hst hne => rfl
  | awstStop hb hst => rfl
  | awstDesync b hb hst hne => rfl

/-- R200, R87: a step completes from every reachable triple, and a reset edge from every triple. -/
theorem step_completes (h : s.reachable = true ∨ s.ports.rst = true) : ∃ t, step ⟨tsw, s⟩ = .next ⟨tsw, t⟩ := by
  by_cases hr : s.ports.rst = true
  · exact ⟨_, step_rst_eq hr⟩
  have hs : s.reachable = true := h.resolve_right hr
  have hr : s.ports.rst = false := Bool.eq_false_iff.mpr hr
  cases hv : s.ports.inValid with
  | false => exact ⟨_, (step_idle_eq hr hv).trans (if_pos hs)⟩
  | true => exact step_completes_of_beat ⟨hs, hr, hv, rfl⟩

/-- Each of the thirteen cases is a step: `StepCase` holds of nothing else than what the step answers. -/
theorem StepCase.step_eq (h : StepCase s t) : step ⟨tsw, s⟩ = .next ⟨tsw, t⟩ := by
  cases h with
  | reset hr => exact step_rst_eq hr
  | idleEdge hr hv hs => exact (step_idle_eq hr hv).trans (if_pos hs)
  | idleStart hb hst =>
    exact (step_of_class hb ((class_of_beat_idle hb hst).trans (if_pos rfl))).trans (idleStartOpensAFrame _ s hb hst)
  | idleSkip b hb hst hne =>
    exact (step_of_class hb ((class_of_beat_idle hb hst).trans (if_neg hne))).trans
      (idleSkipChangesNoCoreRegister _ s b hb hst hne)
  | collRestart hb hst =>
    exact (step_of_class hb ((class_of_beat_collect hb hst).trans (if_pos rfl))).trans
      (collRestartDropsTheFrame _ s hb hst)
  | collChanSplit b hb hst hne hm hi =>
    have hd := class_of_beat_chanSplit hb hst hne hm hi
    exact (step_of_class hb hd).trans (onReachableEdge_of_class hb hd _)
  | collChanUnified b hb hst hne hm hi =>
    have hd := class_of_beat_chanUnified hb hst hne hm hi
    exact (step_of_class hb hd).trans (onReachableEdge_of_class hb hd _)
  | collAccum b hb hst hne h1 hi =>
    exact (step_of_class hb (class_of_beat_below_cap hb hst hi hne)).trans
      (collAccumStoresOneByte _ s b hb hst hi hne)
  | flgsRestart hb hst =>
    exact (step_of_class hb ((class_of_beat_flags hb hst).trans (if_pos rfl))).trans (flgsRestartDropsTheFrame _ s hb hst)
  | flgsDecode b hb hst hne =>
    exact (step_of_class hb ((class_of_beat_flags hb hst).trans (if_neg hne))).trans
      (flgsDecodeLatchesTheFlags _ s b hb hst hne)
  | awstStop hb hst =>
    exact (step_of_class hb ((class_of_beat_awaitStop hb hst).trans (if_pos rfl))).trans
      (awstStopClosesTheFrame _ s hb hst)
  | awstDesync b hb hst hne =>
    exact (step_of_class hb ((class_of_beat_awaitStop hb hst).trans (if_neg hne))).trans
      (awstDesyncDropsBackToIdle _ s b hb hst hne)

end Completion

/-! ## Refusals and faults -/

section Refusals

variable {tsw : Nat} {s : Block tsw} {i : Instr}

/-- R87, I7: in an unreachable triple every meaning but RESET is refused by name. -/
theorem exec_unreachable (hs : s.reachable = false) (hi : ∀ v, i ≠ .reset v) :
    exec i ⟨tsw, s⟩ = .refused .unreachableState := by
  cases i with
  | reset v => exact absurd rfl (hi v)
  | idleStart | idleSkip b | collRestart | collChanSplit b | collChanUnified b | collAccum b | flgsRestart | flgsDecode b
  | awstStop | awstDesync b | beat | idleEdge => exact onReachableEdge_unreachable _ hs

/-- The guard of a meaning refuses another edge than its own by name. -/
theorem onReachableEdge_not_presented (k : Timestamp tsw → Timestamp tsw → Result) (hs : s.reachable = true)
    (hi : s.presents i = false) : onReachableEdge i s k = .refused .notPresented := by
  simp [onReachableEdge, onEdge, hs, hi]

/-- In a reachable triple every meaning asked for on another edge than its own is refused by name. -/
theorem exec_not_presented (hs : s.reachable = true) (hi : s.presents i = false) :
    exec i ⟨tsw, s⟩ = .refused .notPresented := by
  cases i with
  | reset v => exact if_neg (Bool.eq_false_iff.mp hi)
  | idleStart | idleSkip b | collRestart | collChanSplit b | collChanUnified b | collAccum b | flgsRestart | flgsDecode b
  | awstStop | awstDesync b | beat | idleEdge => exact onReachableEdge_not_presented _ hs hi

/-- An edge that presents a class is a beat whose decode word selects it (R81, R82). -/
theorem beat_of_presents_class {st : St} (hi : s.presents i = true) (hstate : i.state? = some st) :
    s.ports.rst = false ∧ s.ports.inValid = true ∧ decodeDw s.decodeWord = i := by
  cases hr : s.ports.rst with
  | true => rw [(presents_of_rst hr i).mp hi] at hstate; cases hstate
  | false =>
    cases hv : s.ports.inValid with
    | false => rw [(presents_of_idle hr hv i).mp hi] at hstate; cases hstate
    | true =>
      rcases (presents_of_beat hr hv i).mp hi with rfl | rfl
      · cases hstate
      · exact ⟨rfl, rfl, rfl⟩

/-- A class is presented only in its own state (R81). -/
theorem state_of_presents_class {st : St} (hi : s.presents i = true) (hstate : i.state? = some st) : s.st = st := by
  obtain ⟨-, -, hd⟩ := beat_of_presents_class hi hstate
  have hdw := decodeDw_state s.decodeWord
  rw [hd, hstate, Block.decodeWord, dwSt_packDw] at hdw
  exact (Option.some.inj hdw).symm

/-- The guard of a meaning raises no fault of its own. -/
theorem onReachableEdge_fault {f : Fault} {k : Timestamp tsw → Timestamp tsw → Result}
    (h : onReachableEdge i s k = .fault f) :
    s.reachable = true ∧ s.presents i = true ∧ k s.ports.inTsStart s.ports.inTsEnd = .fault f := by
  cases hs : s.reachable with
  | false => rw [onReachableEdge_unreachable k hs] at h; cases h
  | true =>
    cases hi : s.presents i with
    | false => rw [onReachableEdge_not_presented k hs hi] at h; cases h
    | true => exact ⟨rfl, rfl, (onReachableEdge_of k hs hi).symm.trans h⟩

/-- R200: only COLL_ACCUM names a fault, at an entry that does not exist, and where it is performed its entry does. -/
theorem exec_ne_fault_of_ne_beat (hi : i ≠ .beat) (f : Fault) : exec i ⟨tsw, s⟩ ≠ .fault f := by
  intro h
  cases i with
  | beat => exact hi rfl
  | reset v =>
    change (if s.presents (.reset v) then _ else _) = _ at h
    split_ifs at h
  | collAccum b =>
    obtain ⟨hs, hpres, h⟩ := onReachableEdge_fault h
    have hst : s.st = .collect := state_of_presents_class hpres rfl
    have hbuf : bufWrite s.buf (s.idx.toNat - 1) b = some (s.buf.put (s.idx.toNat - 1) b) :=
      bufWrite_eq_some.mpr ⟨accum_entry_lt hs hst, rfl⟩
    simp only [hbuf] at h
    cases h
  | idleStart | idleSkip b | collRestart | collChanSplit b | collChanUnified b | flgsRestart | flgsDecode b
  | awstStop | awstDesync b | idleEdge =>
    obtain ⟨-, -, h⟩ := onReachableEdge_fault h
    cases h

/-- R200: BEAT is the class of its decode word, so it raises no fault either. -/
theorem exec_ne_fault (i : Instr) (f : Fault) : exec i ⟨tsw, s⟩ ≠ .fault f := by
  by_cases hi : i = .beat
  · subst hi
    intro h
    obtain ⟨-, -, h⟩ := onReachableEdge_fault h
    rw [performClass_decodeDw] at h
    exact exec_ne_fault_of_ne_beat (decodeDw_is_class s.decodeWord).2.1 f h
  · exact exec_ne_fault_of_ne_beat hi f

/-- R87, I7: a step in an unreachable triple is refused by name, unless its edge is a reset edge. -/
theorem step_unreachable (hs : s.reachable = false) (hr : s.ports.rst = false) :
    step ⟨tsw, s⟩ = .refused .unreachableState := by
  cases hv : s.ports.inValid with
  | false => exact (step_of_idle hr hv).trans (exec_unreachable hs nofun)
  | true => exact (step_of_beat hr hv).trans (exec_unreachable hs nofun)

/-- R87, I7: only such a step is refused, and only by that name. -/
theorem step_refused_iff {r : Refusal} :
    step ⟨tsw, s⟩ = .refused r ↔ s.reachable = false ∧ s.ports.rst = false ∧ r = .unreachableState := by
  refine ⟨fun h => ?_, fun ⟨hs, hr, hname⟩ => hname ▸ step_unreachable hs hr⟩
  have hstuck : ¬ (s.reachable = true ∨ s.ports.rst = true) := fun hok => by
    obtain ⟨t, ht⟩ := step_completes hok
    cases h.symm.trans ht
  obtain ⟨hs, hr⟩ := not_or.mp hstuck
  have hs : s.reachable = false := Bool.eq_false_iff.mpr hs
  have hr : s.ports.rst = false := Bool.eq_false_iff.mpr hr
  cases h.symm.trans (step_unreachable hs hr)
  exact ⟨hs, hr, rfl⟩

end Refusals

end Sys2Proof.Machine

namespace Sys2Proof.Machine

/-! ## Decoding, refusals and completion -/

/-- Settles O4: BEAT performs the class of the decode word, which on this beat is packed with its byte. -/
theorem beatPerformsItsClass : Obligations.BeatPerformsItsClass := by
  unfold Obligations.BeatPerformsItsClass
  intro w s b hb
  refine ⟨?_, ?completes⟩
  · rw [← decodeWord_of_beat hb rfl]
    exact exec_beat hb.rst hb.inValid
  case completes =>
    rw [← step_of_beat hb.rst hb.inValid]
    exact step_completes_of_beat hb

/-- Settles O7: thirteen closed words, each evaluated. -/
theorem sampleWordsDecode : Obligations.SampleWordsDecode := by
  unfold Obligations.SampleWordsDecode
  decide

/-- Settles O9: the decoder's rule for each state. -/
theorem classPerStateAndByte : Obligations.ClassPerStateAndByte := by
  unfold Obligations.ClassPerStateAndByte
  exact fun m idx b =>
    ⟨decodeDw_idle m idx b, decodeDw_collect m idx b, decodeDw_flags m idx b, decodeDw_awaitStop m idx b⟩

/-- The bad-terminator rule matches every byte but the stop-sync byte in AWAIT_STOP (R113). -/
theorem badTerm_packDw (m : Mode) (st : St) (idx : BitVec 5) (b : Byte) :
    badTerm (packDw m st idx b) = true ↔ b ≠ syncStop ∧ st = .awaitStop := by
  simp [badTerm]

/-- Settles O12: state by state, the decoder's classes beside the conditions of the three signals. -/
theorem boundarySignalsNameTheirClasses : Obligations.BoundarySignalsNameTheirClasses := by
  unfold Obligations.BoundarySignalsNameTheirClasses
  intro w
  rw [← packDw_fields w, startDetect_packDw, stopDetect_packDw, badTerm_packDw]
  cases dwSt w with
  | idle => rw [decodeDw_idle]; split_ifs with hb <;> simp [hb]
  | collect => rw [decodeDw_collect]; split_ifs with hb <;> simp [hb]
  | flags => rw [decodeDw_flags]; split_ifs with hb <;> simp [hb]
  | awaitStop => rw [decodeDw_awaitStop]; split_ifs with hb <;> simp [hb]

/-- The complement of R87's list of reachable triples. -/
theorem reachableTriple_eq_false_iff (m : Mode) (st : St) (idx : BitVec 5) :
    reachableTriple m st idx = false ↔
      (st = .idle ∧ idx.toNat ≠ 0) ∨ (st = .collect ∧ (idx.toNat = 0 ∨ idx.toNat > cap m)) ∨
      (st = .flags ∧ m = .unified) ∨ (st = .flags ∧ idx.toNat ≠ 23) ∨ (st = .awaitStop ∧ idx.toNat ≠ 24) := by
  cases st with
  | idle => simp [reachableTriple]
  | collect => simp [reachableTriple]; omega
  | flags => cases m <;> simp [reachableTriple, flagsPos]
  | awaitStop => simp [reachableTriple, stopPos]

/-- Settles O13: the list is the complement of the reachable one, the reachable triples are counted, and the guard of every
meaning refuses the others. -/
theorem unreachableTriplesAreRefused : Obligations.UnreachableTriplesAreRefused := by
  unfold Obligations.UnreachableTriplesAreRefused
  refine ⟨reachableTriple_eq_false_iff, by decide, fun w s hs hr hv => ⟨?step, ?beat, ?selected⟩⟩
  case step => exact step_unreachable hs hr
  case beat => exact exec_unreachable hs nofun
  case selected => exact exec_class_unreachable s.decodeWord hs

/-- Settles O14: the two refusals of the guards. -/
theorem otherInstructionsAreRefused : Obligations.OtherInstructionsAreRefused := by
  unfold Obligations.OtherInstructionsAreRefused
  exact fun w s i => ⟨exec_unreachable, exec_not_presented⟩

/-- Settles O16: no meaning faults, a step is one of them, and from a reachable triple it completes in another. -/
theorem nothingFaultsOrStops : Obligations.NothingFaultsOrStops := by
  unfold Obligations.NothingFaultsOrStops
  refine ⟨fun i w s f => exec_ne_fault i f, fun w s f => exec_ne_fault _ f, fun w s hs => ?completes⟩
  case completes =>
    obtain ⟨t, ht⟩ := step_completes (.inl hs)
    exact ⟨t, ht, (step_case ht).reachable⟩

/-! ## The pair (st, idx) -/

/-- R31: no reachable position is above the stop byte's. -/
theorem idx_le_of_reachable {tsw : Nat} {s : Block tsw} (hs : s.reachable = true) : s.idx.toNat ≤ 24 := by
  cases hst : s.st with
  | idle => rw [reachable_idle hs hst]; decide
  | collect =>
    refine (reachable_collect hs hst).2.trans ?_
    cases s.mode <;> decide
  | flags => rw [(reachable_flags hs hst).2]; decide
  | awaitStop => rw [reachable_awaitStop hs hst]; decide

/-- Settles O27: each class of beat moves the pair as R31 lists, and every step ends in a reachable triple. -/
theorem everyBeatAdvancesThePair : Obligations.EveryBeatAdvancesThePair := by
  unfold Obligations.EveryBeatAdvancesThePair
  intro w s t b hb h
  have hstep := step_case h
  refine ⟨idx_le_of_reachable hstep.reachable, ?_⟩
  cases hstep with
  | reset hr => exact absurd (hb.rst.symm.trans hr) Bool.false_ne_true
  | idleEdge hr hv hs => exact absurd (hv.symm.trans hb.inValid) Bool.false_ne_true
  | idleStart hc hst | collRestart hc hst | flgsRestart hc hst => simp [byte_eq_of_beats hb hc, hst]
  | idleSkip c hc hst hne => simp [byte_eq_of_beats hb hc, hst, hne, reachable_idle hb.reachable hst]
  | collChanSplit c hc hst hne hm hi => simp [byte_eq_of_beats hb hc, hst, hne, hm, hi, cap]
  | collChanUnified c hc hst hne hm hi => simp [byte_eq_of_beats hb hc, hst, hne, hm, hi, cap]
  | collAccum c hc hst hne h1 hi =>
    have hidx : s.idx + 1#5 = BitVec.ofNat 5 (s.idx.toNat + 1) := by
      rw [← idx_succ_toNat hi, BitVec.ofNat_toNat, BitVec.setWidth_eq]
    simp [byte_eq_of_beats hb hc, hst, hne, hi, hidx]
  | flgsDecode c hc hst hne => simp [byte_eq_of_beats hb hc, hst, hne]
  | awstStop hc hst => simp [hst]
  | awstDesync c hc hst hne => simp [hst]

/-! ## Who writes what -/

section Writers

variable {tsw : Nat} {s t : Block tsw}

/-- A meaning answers a next state only on the edge that presents it. -/
theorem presents_of_exec {i : Instr} {u : State} (h : exec i ⟨tsw, s⟩ = .next u) : s.presents i = true := by
  cases i with
  | reset v => exact (onEdge_next.mp (show execReset v ⟨tsw, s⟩ = .next u from h)).1
  | idleStart | idleSkip b | collRestart | collChanSplit b | collChanUnified b | collAccum b | flgsRestart | flgsDecode b
  | awstStop | awstDesync b | beat | idleEdge => exact (onReachableEdge_next.mp h).2.1

/-- The step runs the instruction that its edge presents (R21, R101). -/
theorem step_of_presents {i : Instr} (hi : s.presents i = true) : step ⟨tsw, s⟩ = exec i ⟨tsw, s⟩ := by
  cases hr : s.ports.rst with
  | true => rw [(presents_of_rst hr i).mp hi, step_of_rst hr]
  | false =>
    cases hv : s.ports.inValid with
    | false => rw [(presents_of_idle hr hv i).mp hi, step_of_idle hr hv]
    | true =>
      rcases (presents_of_beat hr hv i).mp hi with rfl | rfl
      · exact step_of_beat hr hv
      · exact step_of_beat_class hr hv

/-- An instruction that answers a next state answers the step's. -/
theorem step_of_exec {i : Instr} {u : State} (h : exec i ⟨tsw, s⟩ = .next u) : step ⟨tsw, s⟩ = .next u :=
  (step_of_presents (presents_of_exec h)).trans h

/-- R7: no step changes TSW. -/
theorem tsw_of_step {u v : State} (h : step u = .next v) : v.tsw = u.tsw := by
  obtain ⟨t, rfl, -⟩ := step_next h
  rfl

/-- R6, R235: every edge keeps MODE and uses up one edge's inputs. -/
theorem StepCase.mode_inputs (h : StepCase s t) : t.mode = s.mode ∧ t.inputs = s.inputs.tail := by
  cases h <;> exact ⟨rfl, rfl⟩

/-- R237: without a reset, an edge that carries no byte leaves the core. -/
theorem StepCase.core_of_idle (h : StepCase s t) (hr : s.ports.rst = false) (hv : s.ports.inValid = false) :
    t.st = s.st ∧ t.idx = s.idx ∧ t.fs = s.fs ∧ t.buf = s.buf := by
  have hidle := (step_idle_eq hr hv).symm.trans h.step_eq
  split_ifs at hidle
  cases hidle
  exact ⟨rfl, rfl, rfl, rfl⟩

/-- R112: only a CHAN record writes ch_raw, so only the two CHAN classes do and a reset edge. -/
theorem StepCase.chRaw_writer (h : StepCase s t) (hr : s.ports.rst = false) (hraw : t.chRaw ≠ s.chRaw) :
    s.ports.inValid = true ∧
      ((∃ b, decodeDw s.decodeWord = .collChanSplit b) ∨ ∃ b, decodeDw s.decodeWord = .collChanUnified b) := by
  cases h with
  | reset hrst => exact absurd (hr.symm.trans hrst) Bool.false_ne_true
  | collChanSplit b hb hst hne hm hi => exact ⟨hb.inValid, .inl ⟨b, class_of_beat_chanSplit hb hst hne hm hi⟩⟩
  | collChanUnified b hb hst hne hm hi => exact ⟨hb.inValid, .inr ⟨b, class_of_beat_chanUnified hb hst hne hm hi⟩⟩
  | idleEdge | idleStart | idleSkip | collRestart | collAccum | flgsRestart | flgsDecode | awstStop | awstDesync =>
    exact absurd rfl hraw

/-- R112: only a FLAG record writes flags_byte, so only FLGS_DECODE does and a reset edge. -/
theorem StepCase.flagsByte_writer (h : StepCase s t) (hr : s.ports.rst = false) (hflags : t.flagsByte ≠ s.flagsByte) :
    s.ports.inValid = true ∧ ∃ b, decodeDw s.decodeWord = .flgsDecode b := by
  cases h with
  | reset hrst => exact absurd (hr.symm.trans hrst) Bool.false_ne_true
  | flgsDecode b hb hst hne => exact ⟨hb.inValid, b, (class_of_beat_flags hb hst).trans (if_neg hne)⟩
  | idleEdge | idleStart | idleSkip | collRestart | collChanSplit | collChanUnified | collAccum | flgsRestart | awstStop
  | awstDesync => exact absurd rfl hflags

end Writers

/-- Settles O28: an instruction that answers a next state is the step's, and of every step the cases show what it writes. -/
theorem onlyTheNamedClassesWrite : Obligations.OnlyTheNamedClassesWrite := by
  unfold Obligations.OnlyTheNamedClassesWrite
  refine ⟨fun i s t h => tsw_of_step (step_of_exec h), fun s t h => tsw_of_step h, fun w s t h => ?_⟩
  have hstep := step_case h
  exact ⟨hstep.mode_inputs, fun hr => ⟨fun hv => (step_of_beat_class hr hv).symm.trans h, hstep.core_of_idle hr,
    hstep.chRaw_writer hr, hstep.flagsByte_writer hr⟩⟩

/-! ## The buffer -/

section Buffer

variable {tsw : Nat} {s t : Block tsw} {i : Instr} {b : Byte}

/-- R81: a class answers a next state only at a mode and position that its row stands for. -/
theorem admits_of_exec {st : St} (hstate : i.state? = some st) (h : exec i ⟨tsw, s⟩ = .next ⟨tsw, t⟩) :
    i.admits s.mode s.idx = true := by
  obtain ⟨-, -, hd⟩ := beat_of_presents_class (presents_of_exec h) hstate
  exact hd ▸ admits_decodeDw s.mode s.st s.idx s.ports.inByte

/-- R61: each storing class writes its byte at entry idx - 1. -/
theorem buf_of_exec_storing (hi : i = .collAccum b ∨ i = .collChanSplit b ∨ i = .collChanUnified b)
    (h : exec i ⟨tsw, s⟩ = .next ⟨tsw, t⟩) : t.buf = s.buf.put (s.idx.toNat - 1) b := by
  rcases hi with rfl | rfl | rfl
  · obtain ⟨-, -, h⟩ := onReachableEdge_next.mp h
    dsimp only at h
    split at h
    next buf hbuf =>
      cases h
      exact (bufWrite_eq_some.mp hbuf).2
    next => cases h
  · have hpos : s.mode = .split ∧ s.idx = 22#5 := by simpa [Instr.admits] using admits_of_exec rfl h
    obtain ⟨-, -, h⟩ := onReachableEdge_next.mp h
    cases h
    rw [hpos.2]
    rfl
  · have hpos : s.mode = .unified ∧ s.idx = 23#5 := by simpa [Instr.admits] using admits_of_exec rfl h
    obtain ⟨-, -, h⟩ := onReachableEdge_next.mp h
    cases h
    rw [hpos.2]
    rfl

/-- R61: the storing classes are those of COLLECT, at a position 1 to CAP. -/
theorem idx_of_exec_storing (hi : i = .collAccum b ∨ i = .collChanSplit b ∨ i = .collChanUnified b)
    (h : exec i ⟨tsw, s⟩ = .next ⟨tsw, t⟩) : 1 ≤ s.idx.toNat ∧ s.idx.toNat ≤ cap s.mode := by
  have hguard : s.reachable = true ∧ i.state? = some .collect := by
    rcases hi with rfl | rfl | rfl <;> exact ⟨(onReachableEdge_next.mp h).1, rfl⟩
  exact reachable_collect hguard.1 (state_of_presents_class (presents_of_exec h) hguard.2)

/-- R61: IDLE_SKIP, FLGS_DECODE and an idle edge do not write the buffer. -/
theorem buf_of_exec_keeping (hi : i = .idleSkip b ∨ i = .flgsDecode b ∨ i = .idleEdge)
    (h : exec i ⟨tsw, s⟩ = .next ⟨tsw, t⟩) : t.buf = s.buf := by
  rcases hi with rfl | rfl | rfl <;>
  · obtain ⟨-, -, h⟩ := onReachableEdge_next.mp h
    cases h
    rfl

/-- R70: RESET and the classes that open or end a frame list nothing in the buffer. -/
theorem buf_of_exec_clearing
    (hi : (∃ v, i = .reset v) ∨ i = .idleStart ∨ i = .collRestart ∨ i = .flgsRestart ∨ i = .awstStop ∨
      ∃ b, i = .awstDesync b)
    (h : exec i ⟨tsw, s⟩ = .next ⟨tsw, t⟩) : t.buf = [] := by
  rcases hi with ⟨v, rfl⟩ | rfl | rfl | rfl | rfl | ⟨b, rfl⟩
  case inl =>
    obtain ⟨-, h⟩ := onEdge_next.mp (show execReset v ⟨tsw, s⟩ = .next ⟨tsw, t⟩ from h)
    cases h
    rfl
  all_goals
    obtain ⟨-, -, h⟩ := onReachableEdge_next.mp h
    cases h
    rfl

/-- R10: every entry of a written buffer, the written one included. -/
theorem bufRead_put {m : Memory} (hm : Memory.wf m) (k : Nat) (v : Byte) {j : Nat} (hj : j < bufEntries) :
    bufRead (m.put k v) j = if j = k then some v else bufRead m j := by
  rw [bufRead_of_lt hj, bufRead_of_lt hj, get_put hm]
  exact apply_ite some ..

end Buffer

/-- Settles O29: the storing classes put their byte at idx - 1, which R61 bounds by CAP - 1, so split mode's never reach
entry 22; the keeping ones have the same buffer, and the cleared buffers list nothing. -/
theorem bufferWritesGoToTheExpectedEntry : Obligations.BufferWritesGoToTheExpectedEntry := by
  unfold Obligations.BufferWritesGoToTheExpectedEntry
  refine ⟨fun w s t b i hwf hi h => ?stored, fun w s t b i hi h k => ?kept,
    fun w s m k hk => ⟨bufRead_nil hk, bufRead_nil hk⟩⟩
  case stored =>
    have hbuf := buf_of_exec_storing hi h
    obtain ⟨hlow, hhigh⟩ := idx_of_exec_storing hi h
    have hcap : cap s.mode ≤ bufEntries := by cases s.mode <;> decide
    refine ⟨by omega, by omega, fun k hk => hbuf ▸ bufRead_put hwf _ b hk, fun hm => ?_⟩
    rw [hm] at hhigh
    have hne : 22 ≠ s.idx.toNat - 1 := by
      have : s.idx.toNat ≤ 22 := hhigh
      omega
    rw [hbuf, bufRead_put hwf _ b (by decide), if_neg hne]
  case kept => rw [buf_of_exec_keeping hi h]

/-- Settles O30: each of these meanings leaves the buffer without a listed entry. -/
theorem bufferClearedAtFrameBoundaries : Obligations.BufferClearedAtFrameBoundaries := by
  unfold Obligations.BufferClearedAtFrameBoundaries
  intro w s t i hi h k hk
  rw [buf_of_exec_clearing hi h]
  exact bufRead_nil hk

/-- Settles O32: a write that answers is a `put`, which keeps the canonical form; no entry that does not exist changes. -/
theorem bufferReadAfterWrite : Obligations.BufferReadAfterWrite := by
  unfold Obligations.BufferReadAfterWrite
  intro m m' k v hwf hwrite
  obtain ⟨hk, rfl⟩ := bufWrite_eq_some.mp hwrite
  refine ⟨put_wf hwf hk v, (bufRead_put hwf k v hk).trans (if_pos rfl), fun j hj => ?other⟩
  case other =>
    unfold bufRead
    rw [get_put hwf, if_neg hj]

end Sys2Proof.Machine

namespace Sys2Proof.Machine

/-! ## The output ports -/

/-- R89: the ports show no reserved code. -/
theorem reserved_codes_never_shown {tsw : Nat} (s : Block tsw) :
    s.outputPorts.evKind ≠ 6#3 ∧ s.outputPorts.evKind ≠ 7#3 ∧ s.outputPorts.evErr ≠ 3#2 := by
  have hkind (k : EvKind) : k.code ≠ 6#3 ∧ k.code ≠ 7#3 := by cases k <;> decide
  have herr (e : EvErr) : e.code ≠ 3#2 := by cases e <;> decide
  exact ⟨(hkind s.evKind).1, (hkind s.evKind).2, herr s.evErr⟩

/-- Settles O35: the codes as R25, R84 and R85 list them. -/
theorem outputCodes : Obligations.OutputCodes := by
  unfold Obligations.OutputCodes
  exact ⟨fun w s => reserved_codes_never_shown s, rfl, rfl, rfl⟩

/-- R32: only a CHAN body carries channels. -/
theorem rawOr_of_ne_chan {body : EventBody} (h : ∀ r, body ≠ .chan r) (old : Channels) : body.rawOr old = old := by
  cases body with
  | chan r => exact absurd rfl (h r)
  | none | start | flag f | stop | desync => rfl

/-- R32: only a FLAG body carries a flags byte. -/
theorem flagsOr_of_ne_flag {body : EventBody} (h : ∀ f, body ≠ .flag f) (old : Byte) : body.flagsOr old = old := by
  cases body with
  | flag f => exact absurd rfl (h f)
  | none | start | chan r | stop | desync => rfl

/-- Settles O33: the fields of `updateOutputs`, the two payload registers by the record's body. -/
theorem recordReachesTheOutputs : Obligations.RecordReachesTheOutputs := by
  unfold Obligations.RecordReachesTheOutputs
  intro w e s
  exact ⟨bne_iff_ne, rfl, rfl, rfl, rfl, fun r hr => congrArg (EventBody.rawOr s.chRaw) hr,
    fun hr => rawOr_of_ne_chan hr s.chRaw, fun f hf => congrArg (EventBody.flagsOr s.flagsByte) hf,
    fun hf => flagsOr_of_ne_flag hf s.flagsByte, rfl, rfl, rfl, rfl, rfl, rfl⟩

/-- R35: each scaled channel is Scale of the raw one. -/
theorem chScaled_getElem {tsw : Nat} (s : Block tsw) (i : Nat) (hi : i < 16) :
    s.outputPorts.chScaled[i] = scale s.chRaw[i] :=
  Vector.getElem_ofFn hi

/-- Settles O34: the outputs are functions of the registers alone, and right after reset every channel is Scale of 0. -/
theorem combinationalOutputs : Obligations.CombinationalOutputs := by
  unfold Obligations.CombinationalOutputs
  refine ⟨fun w s => ⟨chScaled_getElem s, rfl, rfl, rfl, rfl, rfl, rfl⟩, fun w s ps => ⟨rfl, rfl⟩,
    fun w m => ⟨fun i hi => ?_, congrArg flagCh17 (Block.reset_flagsByte m), congrArg flagCh18 (Block.reset_flagsByte m),
      congrArg flagFrameLost (Block.reset_flagsByte m), congrArg flagFailsafe (Block.reset_flagsByte m)⟩⟩
  calc (Block.reset m w).outputPorts.chScaled[i]
      = scale (Block.reset m w).chRaw[i] := chScaled_getElem _ i hi
    _ = scale 0#11 := congrArg scale (Vector.getElem_replicate hi)
    _ = 881#12 := by decide

/-! ## One record per beat -/

section Records

variable {tsw : Nat} {s t : Block tsw} {b : Byte}

/-- R115: the record is NONE exactly after IDLE_SKIP and COLL_ACCUM. -/
theorem evKind_eq_none_iff (hb : BeatOf s b) (h : step ⟨tsw, s⟩ = .next ⟨tsw, t⟩) :
    t.evKind = .none ↔ decodeDw s.decodeWord = .idleSkip b ∨ decodeDw s.decodeWord = .collAccum b := by
  cases step_case h with
  | reset hr => exact absurd (hb.rst.symm.trans hr) Bool.false_ne_true
  | idleEdge hr hv hs => exact absurd (hv.symm.trans hb.inValid) Bool.false_ne_true
  | idleSkip c hc hst hne =>
    obtain rfl := byte_eq_of_beats hb hc
    exact iff_of_true rfl (.inl ((class_of_beat_idle hb hst).trans (if_neg hne)))
  | collAccum c hc hst hne h1 hi =>
    obtain rfl := byte_eq_of_beats hb hc
    exact iff_of_true rfl (.inr (class_of_beat_below_cap hb hst hi hne))
  | idleStart hc hst =>
    rw [class_of_beat_idle hc hst, if_pos rfl]
    exact iff_of_false nofun (by simp)
  | collRestart hc hst =>
    rw [class_of_beat_collect hc hst, if_pos rfl]
    exact iff_of_false nofun (by simp)
  | collChanSplit c hc hst hne hm hi =>
    rw [class_of_beat_chanSplit hc hst hne hm hi]
    exact iff_of_false nofun (by simp)
  | collChanUnified c hc hst hne hm hi =>
    rw [class_of_beat_chanUnified hc hst hne hm hi]
    exact iff_of_false nofun (by simp)
  | flgsRestart hc hst =>
    rw [class_of_beat_flags hc hst, if_pos rfl]
    exact iff_of_false nofun (by simp)
  | flgsDecode c hc hst hne =>
    rw [class_of_beat_flags hc hst, if_neg hne]
    exact iff_of_false nofun (by simp)
  | awstStop hc hst =>
    rw [class_of_beat_awaitStop hc hst, if_pos rfl]
    exact iff_of_false nofun (by simp)
  | awstDesync c hc hst hne =>
    rw [class_of_beat_awaitStop hc hst, if_neg hne]
    exact iff_of_false nofun (by simp)

/-- R33: after a beat the consumer samples what the output registers show, and nothing if the kind is NONE. -/
theorem sampled_of_beat (hb : BeatOf s b) (h : step ⟨tsw, s⟩ = .next ⟨tsw, t⟩) :
    t.sampled = if t.evKind = .none then [] else [⟨t.eventBody, t.evErr, t.evTsStart, t.evTsEnd⟩] := by
  obtain ⟨-, -, hvalid⟩ := record_span_of_beat hb h
  rw [Block.sampled, hvalid]
  cases t.evKind <;> rfl

end Records

/-- Settles O36: which classes report NONE, what is sampled of any other kind, and the premature start's recovery. -/
theorem oneRecordPerBeat : Obligations.OneRecordPerBeat := by
  unfold Obligations.OneRecordPerBeat
  intro w s t b hb h
  refine ⟨fun hclass => ?none, fun hskip haccum => ?one, fun herr => ?premature⟩
  case none => rw [sampled_of_beat hb h, if_pos ((evKind_eq_none_iff hb h).mpr hclass)]
  case one =>
    have hkind : t.evKind ≠ .none := fun hnone => ((evKind_eq_none_iff hb h).mp hnone).elim hskip haccum
    exact ⟨(sampled_of_beat hb h).trans (if_neg hkind), hkind⟩
  case premature =>
    obtain ⟨-, rfl⟩ := recovery_of_prematureStart hb h herr
    exact sampled_updateOutputs _ _

/-- R241: at frame positions 1 to 23 the state is COLLECT or FLAGS. -/
theorem state_of_position {tsw : Nat} {s : Block tsw} (hs : s.reachable = true) (h1 : 1 ≤ s.idx.toNat)
    (h23 : s.idx.toNat ≤ 23) : s.st = .collect ∨ s.st = .flags := by
  cases hst : s.st with
  | idle => rw [reachable_idle hs hst] at h1; exact absurd h1 (by decide)
  | collect => exact .inl rfl
  | flags => exact .inr rfl
  | awaitStop => rw [reachable_awaitStop hs hst] at h23; exact absurd h23 (by decide)

/-- R156: the first packed byte is the low byte of the first channel. -/
theorem pack_first_byte (r : Channels) : (pack r)[0] = r[0].extractLsb' 0 8 := by
  rw [pack_getElem]
  apply BitVec.eq_of_getLsbD_eq
  intro j hj
  have hdiv : j / 11 = 0 := by omega
  have hmod : j % 11 = j := by omega
  simp only [BitVec.getLsbD_extractLsb', Nat.mul_zero, Nat.zero_add, channelBus_getLsbD r j (by omega), hdiv, hmod]

/-- Settles O39: inside a frame a start-sync byte is the recovery from a premature start, and the low byte of 0x70F is a
start-sync byte. -/
theorem startSyncInsideAFrameAbortsIt : Obligations.StartSyncInsideAFrameAbortsIt := by
  unfold Obligations.StartSyncInsideAFrameAbortsIt
  refine ⟨fun w s t hb h1 h23 h => ?abort, fun r hr => ?byte⟩
  case abort =>
    have herr : t.evErr = .prematureStart :=
      (evErr_prematureStart_iff hb h).mpr ⟨rfl, state_of_position hb.reachable h1 h23⟩
    obtain ⟨-, rfl⟩ := recovery_of_prematureStart hb h herr
    exact ⟨rfl, rfl, rfl, rfl, rfl, rfl⟩
  case byte =>
    rw [pack_first_byte, hr]
    decide

/-! ## The bit-slicer's tables and inverses -/

/-- Settles O43: bit for bit. -/
theorem channelBusIsTheChannels : Obligations.ChannelBusIsTheChannels := by
  unfold Obligations.ChannelBusIsTheChannels
  intro r i hi
  apply BitVec.eq_of_getLsbD_eq
  intro j hj
  have hdiv : (11 * i + j) / 11 = i := by omega
  have hmod : (11 * i + j) % 11 = j := by omega
  have hbit : 11 * i + j < 176 := by omega
  simp only [BitVec.getLsbD_extractLsb', hj, decide_true, Bool.true_and, channelBus_getLsbD r _ hbit, hdiv, hmod]

/-- R154: the bus of the unpacked channels is the payload stream. -/
theorem channelBus_unpack (p : AnalogBytes) : channelBus (unpack p) = payloadStream p := by
  apply BitVec.eq_of_getLsbD_eq
  intro k hk
  rw [channelBus_getLsbD _ k hk, unpack_getLsbD _ _ _ (by omega) (by omega), Nat.div_add_mod]

/-- The bus's number is `sum_i r_i * 2^(11*i)` (R154, R156). -/
theorem channelBus_toNat_eq_sum (r : Channels) :
    (channelBus r).toNat = ∑ i : Fin 16, r[i].toNat * 2 ^ (11 * i.val) := by
  rw [channelBus_toNat, vector_toList_eq_ofFn, channelsToNat_ofFn]

/-- Settles O46: the bus is the payload stream, so its bits and its number are the stream's. -/
theorem busAfterUnpackIsThePayload : Obligations.BusAfterUnpackIsThePayload := by
  unfold Obligations.BusAfterUnpackIsThePayload
  refine fun p => ⟨fun k hk => ?bits, ?number⟩
  case bits => rw [channelBus_unpack, payloadStream_getLsbD p k hk]
  case number => rw [← channelBus_toNat_eq_sum, channelBus_unpack, payloadStream_toNat_eq_sum]

/-- R156: packing the unpacked channels gives the payload back, the bus between them being the payload stream. -/
theorem pack_unpack (p : AnalogBytes) : pack (unpack p) = p := by
  ext k hk j hj
  have hdiv : (8 * k + j) / 8 = k := by omega
  have hmod : (8 * k + j) % 8 = j := by omega
  rw [← BitVec.getLsbD_eq_getElem, ← BitVec.getLsbD_eq_getElem, pack_getElem _ k hk, channelBus_unpack,
    BitVec.getLsbD_extractLsb', decide_eq_true hj, Bool.true_and, payloadStream_getLsbD p _ (by omega)]
  simp only [hdiv, hmod]

/-- Settles O48: a packed byte is cut out of the bus's number, and the two inverses make Unpack bijective. -/
theorem packAndUnpackAreInverse : Obligations.PackAndUnpackAreInverse := by
  unfold Obligations.PackAndUnpackAreInverse
  refine ⟨fun r k hk => ?formula, unpack_pack, pack_unpack,
    Function.bijective_iff_has_inverse.mpr ⟨pack, pack_unpack, unpack_pack⟩⟩
  case formula =>
    rw [pack_getElem r k hk, BitVec.extractLsb'_toNat, channelBus_toNat_eq_sum, Nat.shiftRight_eq_div_pow]

section Rows

variable (p : AnalogBytes) (i k o : Nat)

/-- A row of R153 over two bytes: a channel that begins at bit `o <= 5` of byte `k` takes its upper bits from byte `k + 1`. -/
theorem slice_two_bytes (hi : i < 16 := by decide) (hk : k + 1 < 22 := by decide)
    (hpos : 11 * i = 8 * k + o := by decide) (ho : o ≤ 5 := by decide)
    (hw : (2 + o - 0 + 1) + (7 - o + 1) = 11 := by decide) :
    (unpack p)[i] = (p[k + 1].extractLsb (2 + o) 0 ++ p[k].extractLsb 7 o).cast hw := by
  apply BitVec.eq_of_getLsbD_eq
  intro j hj
  rw [unpack_getLsbD_byte p i j hi hj, BitVec.getLsbD_cast, BitVec.getLsbD_append, BitVec.getLsbD_extractLsb,
    BitVec.getLsbD_extractLsb]
  by_cases hlow : j < 7 - o + 1
  · have hdiv : (11 * i + j) / 8 = k := by omega
    have hmod : (11 * i + j) % 8 = o + j := by omega
    simp [hlow, hdiv, hmod]
  · have hdiv : (11 * i + j) / 8 = k + 1 := by omega
    have hmod : (11 * i + j) % 8 = j - (7 - o + 1) := by omega
    have hle : j - (7 - o + 1) ≤ 2 + o := by omega
    simp [hlow, hle, hdiv, hmod]

/-- A row of R153 over three bytes: a channel that begins at bit `o >= 6` of byte `k` takes the whole byte `k + 1` and its
upper bits from byte `k + 2`. -/
theorem slice_three_bytes (hi : i < 16 := by decide) (hk : k + 2 < 22 := by decide)
    (hpos : 11 * i = 8 * k + o := by decide) (ho : 6 ≤ o := by decide) (ho' : o ≤ 7 := by decide)
    (hw : (o - 6 - 0 + 1) + (7 - 0 + 1) + (7 - o + 1) = 11 := by decide) :
    (unpack p)[i] = (p[k + 2].extractLsb (o - 6) 0 ++ p[k + 1].extractLsb 7 0 ++ p[k].extractLsb 7 o).cast hw := by
  apply BitVec.eq_of_getLsbD_eq
  intro j hj
  rw [unpack_getLsbD_byte p i j hi hj, BitVec.getLsbD_cast, BitVec.getLsbD_append, BitVec.getLsbD_append,
    BitVec.getLsbD_extractLsb, BitVec.getLsbD_extractLsb, BitVec.getLsbD_extractLsb]
  by_cases hlow : j < 7 - o + 1
  · have hdiv : (11 * i + j) / 8 = k := by omega
    have hmod : (11 * i + j) % 8 = o + j := by omega
    simp [hlow, hdiv, hmod]
  by_cases hmid : j - (7 - o + 1) < 8
  · have hdiv : (11 * i + j) / 8 = k + 1 := by omega
    have hmod : (11 * i + j) % 8 = j - (7 - o + 1) := by omega
    simp [hlow, hmid, hdiv, hmod]
  · have hdiv : (11 * i + j) / 8 = k + 2 := by omega
    have hmod : (11 * i + j) % 8 = j - (7 - o + 1) - 8 := by omega
    have hle : j ≤ o - 6 + 8 + (7 - o + 1) := by omega
    simp [hlow, hmid, hle, hdiv, hmod]

end Rows

/-- Settles O45: twelve channels begin at bit 0 to 5 of a byte and span two bytes, the other four begin at bit 6 or 7 and
span three. -/
theorem sliceTable : Obligations.SliceTable := by
  unfold Obligations.SliceTable
  intro p
  exact ⟨slice_two_bytes p 0 0 0, slice_two_bytes p 1 1 3, slice_three_bytes p 2 2 6, slice_two_bytes p 3 4 1,
    slice_two_bytes p 4 5 4, slice_three_bytes p 5 6 7, slice_two_bytes p 6 8 2, slice_two_bytes p 7 9 5,
    slice_two_bytes p 8 11 0, slice_two_bytes p 9 12 3, slice_three_bytes p 10 13 6, slice_two_bytes p 11 15 1,
    slice_two_bytes p 12 16 4, slice_three_bytes p 13 17 7, slice_two_bytes p 14 19 2, slice_two_bytes p 15 20 5⟩

/-! ## Scale -/

/-- R158: the smallest raw value whose Scale is 881 + q is the quotient of q * 1639 by 1024, rounded up. -/
theorem scale_roundUp {q : Nat} (hq : q ≤ 1278) : (scale (BitVec.ofNat 11 ((q * 1639 + 1023) / 1024))).toNat = q + 881 := by
  have hraw : (q * 1639 + 1023) / 1024 < 2 ^ 11 := by omega
  rw [scale_toNat, BitVec.toNat_ofNat, Nat.mod_eq_of_lt hraw, scaleMul, scaleDiv, scaleOfs]
  omega

/-- Settles O49: the quotient is monotone, 1024 is less than the divisor 1639, and every value has a raw value below it. -/
theorem scaleIsNonDecreasingAndOnto : Obligations.ScaleIsNonDecreasingAndOnto := by
  unfold Obligations.ScaleIsNonDecreasingAndOnto
  refine ⟨fun r₁ r₂ hle => ?monotone, fun r₁ r₂ hsucc => ?smooth, fun v hlow hhigh => ?onto⟩
  case monotone =>
    rw [scale_toNat, scale_toNat]
    exact Nat.add_le_add_right (Nat.div_le_div_right (Nat.mul_le_mul_right scaleMul hle)) scaleOfs
  case smooth =>
    rw [scale_toNat, scale_toNat, hsucc, scaleMul, scaleDiv, scaleOfs]
    omega
  case onto =>
    refine ⟨BitVec.ofNat 11 (((v - 881) * 1639 + 1023) / 1024), ?_⟩
    rw [scale_roundUp (by omega)]
    omega

end Sys2Proof.Machine

namespace Sys2Proof.Machine

/-! ## Entry 22 is never read -/

section Entry22

variable {tsw : Nat} {s s' t : Block tsw} {m m' : Memory} {b : Byte}

/-- R62: the slicer's operand in unified mode is entries 0 to 21. -/
theorem analogBytes_congr (h : ∀ k, k < 22 → m.get k = m'.get k) : analogBytes m = analogBytes m' := by
  ext1 k hk
  rw [analogBytes_getElem, analogBytes_getElem, h k hk]

/-- A write of the same byte to the same entry keeps two buffers equal below entry 22. -/
theorem get_put_congr (hm : Memory.wf m) (hm' : Memory.wf m') (h : ∀ k, k < 22 → m.get k = m'.get k) (e : Nat) (v : Byte) :
    ∀ k, k < 22 → (m.put e v).get k = (m'.put e v).get k := by
  intro k hk
  rw [get_put hm, get_put hm', h k hk]

/-- R62: two blocks that differ at most in entry 22 show the same on every output port, none of which reads the buffer. -/
theorem SameButEntry22.outputPorts (h : SameButEntry22 s s') : s'.outputPorts = s.outputPorts := by
  rw [h.1]
  rfl

/-- R62: two such blocks are presented with the same beat. -/
theorem SameButEntry22.beatOf (h : SameButEntry22 s s') (hb : BeatOf s b) : BeatOf s' b := by
  rw [h.1]
  exact ⟨hb.reachable, hb.rst, hb.inValid, hb.inByte⟩

/-- R62: each way a step can go is open to both blocks: the guards do not read the buffer, the slicer reads only entries 0 to
21, and every write is the same in both. -/
theorem StepCase.sameButEntry22 (hsame : SameButEntry22 s s') (h : StepCase s t) :
    ∃ t', StepCase s' t' ∧ SameButEntry22 t t' := by
  have hbeat {b : Byte} (hb : BeatOf s b) : BeatOf s' b := hsame.beatOf hb
  obtain ⟨heq, hwf, hwf', hget⟩ := hsame
  generalize s'.buf = m at heq hwf' hget
  subst heq
  cases h with
  | reset hr => exact ⟨_, .reset hr, rfl, wf_nil, wf_nil, fun _ _ => rfl⟩
  | idleEdge hr hv hs => exact ⟨_, .idleEdge hr hv hs, rfl, hwf, hwf', hget⟩
  | idleStart hb hst => exact ⟨_, .idleStart (hbeat hb) hst, rfl, wf_nil, wf_nil, fun _ _ => rfl⟩
  | idleSkip b hb hst hne => exact ⟨_, .idleSkip b (hbeat hb) hst hne, rfl, hwf, hwf', hget⟩
  | collRestart hb hst => exact ⟨_, .collRestart (hbeat hb) hst, rfl, wf_nil, wf_nil, fun _ _ => rfl⟩
  | collChanSplit b hb hst hne hm hi =>
    refine ⟨_, .collChanSplit b (hbeat hb) hst hne hm hi, ?_, put_wf hwf (by decide) b, put_wf hwf' (by decide) b,
      get_put_congr hwf hwf' hget 21 b⟩
    rw [analogBytesWith, analogBytesWith, analogBytes_congr hget]
    rfl
  | collChanUnified b hb hst hne hm hi =>
    refine ⟨_, .collChanUnified b (hbeat hb) hst hne hm hi, ?_, put_wf hwf (by decide) b, put_wf hwf' (by decide) b,
      get_put_congr hwf hwf' hget 22 b⟩
    rw [analogBytes_congr hget]
    rfl
  | collAccum b hb hst hne h1 hi =>
    have hentry := accum_entry_lt hb.reachable hst
    exact ⟨_, .collAccum b (hbeat hb) hst hne h1 hi, rfl, put_wf hwf hentry b, put_wf hwf' hentry b,
      get_put_congr hwf hwf' hget _ b⟩
  | flgsRestart hb hst => exact ⟨_, .flgsRestart (hbeat hb) hst, rfl, wf_nil, wf_nil, fun _ _ => rfl⟩
  | flgsDecode b hb hst hne => exact ⟨_, .flgsDecode b (hbeat hb) hst hne, rfl, hwf, hwf', hget⟩
  | awstStop hb hst => exact ⟨_, .awstStop (hbeat hb) hst, rfl, wf_nil, wf_nil, fun _ _ => rfl⟩
  | awstDesync b hb hst hne => exact ⟨_, .awstDesync b (hbeat hb) hst hne, rfl, wf_nil, wf_nil, fun _ _ => rfl⟩

end Entry22

/-- Settles O31: the other block goes the same way, to a block that again differs at most in entry 22. -/
theorem entryTwentyTwoIsNeverRead : Obligations.EntryTwentyTwoIsNeverRead := by
  unfold Obligations.EntryTwentyTwoIsNeverRead
  intro w s s' t hsame h
  obtain ⟨t', hstep', hsame'⟩ := (step_case h).sameButEntry22 hsame
  exact ⟨t', hstep'.step_eq, hsame', hsame'.outputPorts⟩

/-! ## Timestamps are opaque -/

/-- An event with both timestamps renamed by `f` (R7). -/
def Event.mapTs {tsw v : Nat} (f : Timestamp tsw → Timestamp v) (e : Event tsw) : Event v :=
  ⟨e.body, e.err, f e.tsStart, f e.tsEnd⟩

section Timestamps

variable {tsw v : Nat} {f : Timestamp tsw → Timestamp v} {s t : Block tsw} {b : Byte}

/-- The end of a beat commutes with renaming the timestamps, so a way the renamed block can go with the renamed record and
core leads to the renamed next state. -/
theorem StepCase.mapTs_commit {e : Event tsw} {c : Block tsw} {e' : Event v} {c' : Block v}
    (h : StepCase (s.mapTs f) (updateOutputs e' c').nextEdge) (he : e' = e.mapTs f) (hc : c' = c.mapTs f) :
    StepCase (s.mapTs f) ((updateOutputs e c).nextEdge.mapTs f) := by
  have hcommit : (updateOutputs e c).nextEdge.mapTs f = (updateOutputs (e.mapTs f) (c.mapTs f)).nextEdge := by
    simp [Block.mapTs, Event.mapTs, updateOutputs, Block.nextEdge]
  rw [hcommit, ← he, ← hc]
  exact h

section KeepsZero

variable (hf : f 0#tsw = 0#v)
include hf

/-- The ports show the renamed timestamps of the next edge, also where nothing is presented. -/
theorem mapTs_ports :
    (s.mapTs f).ports =
      ⟨s.ports.rst, s.ports.inValid, s.ports.inByte, f s.ports.inTsStart, f s.ports.inTsEnd⟩ := by
  unfold Block.ports
  cases hps : s.inputs with
  | nil => simp [Block.mapTs, hps, Ports.quiet, hf]
  | cons p ps => simp [Block.mapTs, hps]

/-- R7, R80: a renamed block is presented with the same beat. -/
theorem BeatOf.mapTs (hb : BeatOf s b) : BeatOf (s.mapTs f) b := by
  refine ⟨hb.reachable, ?_, ?_, ?_⟩ <;> rw [mapTs_ports hf]
  exacts [hb.rst, hb.inValid, hb.inByte]

theorem mapTs_startFrame : (startFrame s).mapTs f = startFrame (s.mapTs f) := by
  simp [Block.mapTs, startFrame, hf]

theorem mapTs_clearFrame : (clearFrame s).mapTs f = clearFrame (s.mapTs f) := by
  simp [Block.mapTs, clearFrame, hf]

/-- R7: each way a step can go is open to the renamed block and leads to the renamed next state. -/
theorem StepCase.mapTs (h : StepCase s t) : StepCase (s.mapTs f) (t.mapTs f) := by
  have hports := mapTs_ports (s := s) hf
  have hbeat {b : Byte} (hb : BeatOf s b) : BeatOf (s.mapTs f) b := hb.mapTs hf
  have hown (body : EventBody) (err : EvErr) :
      (⟨body, err, (s.mapTs f).ports.inTsStart, (s.mapTs f).ports.inTsEnd⟩ : Event v) =
        Event.mapTs f ⟨body, err, s.ports.inTsStart, s.ports.inTsEnd⟩ := by rw [hports]; rfl
  have hspan (body : EventBody) :
      (⟨body, .none, f s.fs, (s.mapTs f).ports.inTsEnd⟩ : Event v) =
        Event.mapTs f ⟨body, .none, s.fs, s.ports.inTsEnd⟩ := by rw [hports]; rfl
  have hstart := (mapTs_startFrame (s := s) hf).symm
  have hclear := (mapTs_clearFrame (s := s) hf).symm
  cases h with
  | reset hr => simpa [Block.mapTs, Block.reset, hf] using StepCase.reset (s := s.mapTs f) (hports ▸ hr)
  | idleEdge hr hv hs =>
    simpa [Block.mapTs] using StepCase.idleEdge (s := s.mapTs f) (hports ▸ hr) (hports ▸ hv) hs
  | idleStart hb hst => exact .mapTs_commit (.idleStart (hbeat hb) hst) (hown ..) hstart
  | idleSkip b hb hst hne => exact .mapTs_commit (.idleSkip b (hbeat hb) hst hne) (hown ..) rfl
  | collRestart hb hst => exact .mapTs_commit (.collRestart (hbeat hb) hst) (hown ..) hstart
  | collChanSplit b hb hst hne hm hi => exact .mapTs_commit (.collChanSplit b (hbeat hb) hst hne hm hi) (hspan _) rfl
  | collChanUnified b hb hst hne hm hi =>
    exact .mapTs_commit (.collChanUnified b (hbeat hb) hst hne hm hi) (hspan _) rfl
  | collAccum b hb hst hne h1 hi =>
    refine .mapTs_commit (.collAccum b (hbeat hb) hst hne h1 hi) (hown ..) ?_
    rw [hports]
    simp only [Block.mapTs, apply_ite f]
    rfl
  | flgsRestart hb hst => exact .mapTs_commit (.flgsRestart (hbeat hb) hst) (hown ..) hstart
  | flgsDecode b hb hst hne => exact .mapTs_commit (.flgsDecode b (hbeat hb) hst hne) (hown ..) rfl
  | awstStop hb hst => exact .mapTs_commit (.awstStop (hbeat hb) hst) (hown ..) hclear
  | awstDesync b hb hst hne => exact .mapTs_commit (.awstDesync b (hbeat hb) hst hne) (hown ..) hclear

end KeepsZero

end Timestamps

/-- Settles O52: a step's way is open to the renamed block, and whether a step is refused is a matter of MODE, st, idx and
rst alone. -/
theorem timestampsAreOpaque : Obligations.TimestampsAreOpaque := by
  unfold Obligations.TimestampsAreOpaque
  intro w v f s hf
  refine ⟨fun t h => ((step_case h).mapTs hf).step_eq, fun r h => ?refused⟩
  case refused =>
    obtain ⟨hs, hr, rfl⟩ := step_refused_iff.mp h
    exact step_unreachable hs (mapTs_ports (s := s) hf ▸ hr)

end Sys2Proof.Machine

namespace Sys2Proof.Machine

/-! ## Runs with idle edges -/

section Runs

variable {tsw : Nat} {s t : Block tsw} {u : State} {n : Nat} {evs : List Sample}

/-- R69: the events of a run are those of its first edge and then those of the rest. -/
theorem runEvents_cons (h : step ⟨tsw, s⟩ = .next ⟨tsw, t⟩) (hrun : runEvents n ⟨tsw, t⟩ = some (evs, u)) :
    runEvents (n + 1) ⟨tsw, s⟩ = some (t.sampled.map (fun e => ⟨tsw, e⟩) ++ evs, u) := by
  rw [runEvents_succ h, hrun]
  rfl

/-- R69: two runs one after the other. -/
theorem runEvents_trans {m : Nat} {u v w : State} {evs evs' : List Sample} (hm : runEvents m u = some (evs, v))
    (hn : runEvents n v = some (evs', w)) : runEvents (m + n) u = some (evs ++ evs', w) := by
  rw [runEvents_add, hm, Option.bind_some, hn, Option.map_some]

/-- What holds of the next `n + 1` edges, and of an edge at which nothing is presented, holds at the ports and of the `n`
edges after them. -/
theorem forall_edges_succ {P : Ports tsw → Prop} (hquiet : P (Ports.quiet tsw)) (h : ∀ p ∈ s.inputs.take (n + 1), P p) :
    P s.ports ∧ ∀ p ∈ s.inputs.tail.take n, P p := by
  unfold Block.ports
  cases hps : s.inputs with
  | nil => exact ⟨hquiet, by simp⟩
  | cons p ps =>
    rw [hps, List.take_succ_cons, List.forall_mem_cons] at h
    exact h

/-- R242: idle edges complete from a reachable triple, sample nothing and hold the core and the payload registers. -/
theorem run_of_idle_edges (n : Nat) (hs : s.reachable = true)
    (hidle : ∀ p ∈ s.inputs.take n, p.rst = false ∧ p.inValid = false) :
    ∃ t : Block tsw, runEvents n ⟨tsw, s⟩ = some ([], ⟨tsw, t⟩) ∧ t.st = s.st ∧ t.idx = s.idx ∧ t.buf = s.buf ∧
      t.fs = s.fs ∧ t.chRaw = s.chRaw ∧ t.flagsByte = s.flagsByte := by
  induction n generalizing s with
  | zero => exact ⟨s, rfl, rfl, rfl, rfl, rfl, rfl, rfl⟩
  | succ n ih =>
    obtain ⟨⟨hr, hv⟩, hrest⟩ := forall_edges_succ ⟨rfl, rfl⟩ hidle
    have hstep := (StepCase.idleEdge hr hv hs).step_eq
    obtain ⟨t, hrun, hcore⟩ :=
      ih (s := { s with evValid := false, evKind := .none, evErr := .none, inputs := s.inputs.tail }) hs hrest
    exact ⟨t, runEvents_cons hstep hrun, hcore⟩

end Runs

/-- Settles O53: edge by edge. -/
theorem noTimeout : Obligations.NoTimeout := by
  unfold Obligations.NoTimeout
  exact fun n w s hs hidle => run_of_idle_edges n hs hidle

section Events

variable {tsw : Nat} {s t : Block tsw} {p : Ports tsw} {ps qs : List (Ports tsw)}

/-- The way a step goes, and the next state but for its later inputs, do not depend on the last event's valid, kind and error
registers (which every edge overwrites) nor on the later inputs (R235). -/
theorem StepCase.of_same_edge (h : StepCase { s with inputs := p :: ps } t) (valid : Bool) (kind : EvKind) (err : EvErr) :
    StepCase { s with evValid := valid, evKind := kind, evErr := err, inputs := p :: qs } { t with inputs := qs } := by
  have hbeat {b : Byte} (hb : BeatOf { s with inputs := p :: ps } b) :
      BeatOf { s with evValid := valid, evKind := kind, evErr := err, inputs := p :: qs } b :=
    ⟨hb.reachable, hb.rst, hb.inValid, hb.inByte⟩
  cases h with
  | reset hr => exact .reset hr
  | idleEdge hr hv hs => exact .idleEdge hr hv hs
  | idleStart hb hst => exact .idleStart (hbeat hb) hst
  | idleSkip b hb hst hne => exact .idleSkip b (hbeat hb) hst hne
  | collRestart hb hst => exact .collRestart (hbeat hb) hst
  | collChanSplit b hb hst hne hm hi => exact .collChanSplit b (hbeat hb) hst hne hm hi
  | collChanUnified b hb hst hne hm hi => exact .collChanUnified b (hbeat hb) hst hne hm hi
  | collAccum b hb hst hne h1 hi => exact .collAccum b (hbeat hb) hst hne h1 hi
  | flgsRestart hb hst => exact .flgsRestart (hbeat hb) hst
  | flgsDecode b hb hst hne => exact .flgsDecode b (hbeat hb) hst hne
  | awstStop hb hst => exact .awstStop (hbeat hb) hst
  | awstDesync b hb hst hne => exact .awstDesync b (hbeat hb) hst hne

/-- The events of a list of edges are those of its first edge and then those of the rest. -/
theorem eventsOf_cons (h : StepCase { s with inputs := p :: ps } t) :
    eventsOf (p :: ps) s = (eventsOf ps t).map fun evs => t.sampled.map (fun e => ⟨tsw, e⟩) ++ evs := by
  have ht : { t with inputs := ps } = t := by
    have hinputs : t.inputs = ps := h.mode_inputs.2
    rw [← hinputs]
  rw [eventsOf, eventsOf, ht, List.length_cons, runEvents_succ h.step_eq, Option.map_map, Option.map_map]
  rfl

/-- The events of coming edges do not depend on the last event's valid, kind and error registers. -/
theorem eventsOf_of_same_core (hs : s.reachable = true) (valid : Bool) (kind : EvKind) (err : EvErr) (ps : List (Ports tsw)) :
    eventsOf ps { s with evValid := valid, evKind := kind, evErr := err } = eventsOf ps s := by
  cases ps with
  | nil => rfl
  | cons p ps =>
    obtain ⟨t, ht⟩ := step_completes (s := { s with inputs := p :: ps }) (.inl hs)
    rw [eventsOf_cons (step_case ht), eventsOf_cons ((step_case ht).of_same_edge valid kind err (qs := ps))]
    rfl

/-- R243: taking out the idle edges takes out no event, whatever the edges before left in the event registers. -/
theorem eventsOf_filter_beats (hs : s.reachable = true) (hrst : ∀ p ∈ ps, p.rst = false) :
    (eventsOf ps s).isSome = true ∧ eventsOf ps s = eventsOf (ps.filter (·.inValid)) s := by
  induction ps generalizing s with
  | nil => exact ⟨rfl, rfl⟩
  | cons p ps ih =>
    obtain ⟨hr, hrest⟩ := List.forall_mem_cons.mp hrst
    cases hv : p.inValid with
    | true =>
      obtain ⟨t, ht⟩ := step_completes (s := { s with inputs := p :: ps }) (.inl hs)
      have hstep := step_case ht
      obtain ⟨hsome, hsame⟩ := ih hstep.reachable hrest
      rw [List.filter_cons_of_pos hv, eventsOf_cons hstep, eventsOf_cons (hstep.of_same_edge _ _ _)]
      exact ⟨by rw [Option.isSome_map]; exact hsome, congrArg (Option.map _) hsame⟩
    | false =>
      have hskip : eventsOf (p :: ps) s = eventsOf ps s := by
        rw [eventsOf_cons (.idleEdge (s := { s with inputs := p :: ps }) hr hv hs)]
        exact Option.map_id'.trans (eventsOf_of_same_core hs false .none .none ps)
      rw [List.filter_cons_of_neg (by simp [hv]), hskip]
      exact ih hs hrest

end Events

/-- Settles O58: by induction on the edges, an idle edge changing nothing but the registers that every later edge
overwrites. -/
theorem idleEdgesDoNotChangeTheEvents : Obligations.IdleEdgesDoNotChangeTheEvents := by
  unfold Obligations.IdleEdgesDoNotChangeTheEvents
  exact fun w s ps hs hrst => eventsOf_filter_beats hs hrst

/-! ## Start-sync bytes in a row -/

section Restarts

variable {tsw : Nat} {s : Block tsw}

/-- R207: from position 1 each further start-sync byte is one START with the error code, at position 1 again. -/
theorem run_of_restarts (n : Nat) (ts : Nat → Timestamp tsw × Timestamp tsw) (hs : s.reachable = true)
    (hst : s.st = .collect) (hi : s.idx = 1#5) (hin : s.inputs = Script.beatsWith ts (List.replicate n syncStart)) :
    ∃ t : Block tsw, runEvents n ⟨tsw, s⟩ =
        some ((List.range n).map fun k => ⟨tsw, .start, .prematureStart, (ts k).1, (ts k).2⟩, ⟨tsw, t⟩) ∧
      t.st = .collect ∧ t.idx = 1#5 := by
  induction n generalizing s ts with
  | zero => exact ⟨s, rfl, hst, hi⟩
  | succ n ih =>
    rw [List.replicate_succ, Script.beatsWith] at hin
    have hstep := StepCase.collRestart (beatOf_of_inputs hs hin) hst
    have hrest := hstep.mode_inputs.2
    rw [ports_of_inputs hin] at hstep hrest
    rw [hin] at hrest
    obtain ⟨t, hrun, hend⟩ := ih (fun k => ts (k + 1)) hstep.reachable rfl rfl hrest
    refine ⟨t, (runEvents_cons hstep.step_eq hrun).trans ?_, hend⟩
    rw [sampled_updateOutputs, List.range_succ_eq_map, List.map_cons, List.map_map]
    rfl

end Restarts

/-- Settles O54: the first byte opens a frame from IDLE, each further one restarts it. -/
theorem repeatedStartSyncs : Obligations.RepeatedStartSyncs := by
  unfold Obligations.RepeatedStartSyncs
  intro n w s ts hs hst hin
  rw [List.replicate_succ, Script.beatsWith] at hin
  have hstep := StepCase.idleStart (beatOf_of_inputs hs hin) hst
  have hrest := hstep.mode_inputs.2
  rw [ports_of_inputs hin] at hstep hrest
  rw [hin] at hrest
  obtain ⟨t, hrun, hend⟩ := run_of_restarts n (fun k => ts (k + 1)) hstep.reachable rfl rfl hrest
  refine ⟨t, (runEvents_cons hstep.step_eq hrun).trans ?_, hend⟩
  rw [sampled_updateOutputs]
  rfl

end Sys2Proof.Machine

namespace Sys2Proof.Machine

/-! ## A whole frame

The script of a frame is followed position by position (R2): `fed ts vs n` is what is still to come at position `n`. -/

/-- The beats of the bytes `vs` from position `n` on, each with its own timestamps. -/
def fed {tsw : Nat} (ts : Nat → Timestamp tsw × Timestamp tsw) (vs : List Byte) (n : Nat) : List (Ports tsw) :=
  Script.beatsWith (fun k => ts (k + n)) (vs.drop n)

section Feeding

variable {tsw : Nat} (ts : Nat → Timestamp tsw × Timestamp tsw) (p : AnalogBytes) (f : Byte)

/-- R91: at position `n` the `n`-th byte comes next, with the `n`-th timestamps. -/
theorem fed_eq_cons {vs : List Byte} {n : Nat} {b : Byte} (h : vs[n]? = some b) :
    fed ts vs n = ⟨false, true, b, (ts n).1, (ts n).2⟩ :: fed ts vs (n + 1) := by
  obtain ⟨hn, rfl⟩ := List.getElem?_eq_some_iff.mp h
  simp only [fed, List.drop_eq_getElem_cons hn, Script.beatsWith, Nat.zero_add, Nat.add_assoc, Nat.add_comm 1 n]

/-- R2: frame positions 1 to 22 are the analog bytes. -/
theorem frameBytes_payload {k : Nat} (hk : k < 22) : (Script.frameBytes p f)[k + 1]? = some p[k] := by
  simp [Script.frameBytes, List.getElem?_append, hk]

/-- R2: frame position 23 is the flags byte. -/
theorem frameBytes_flags : (Script.frameBytes p f)[23]? = some f := by simp [Script.frameBytes]

/-- R2: frame position 24 is the stop-sync byte, the last one. -/
theorem frameBytes_stop : (Script.frameBytes p f)[24]? = some syncStop := by
  simp [Script.frameBytes]

/-- R2: after frame position 24 nothing is left of the frame. -/
theorem fed_frameBytes_end : fed ts (Script.frameBytes p f) 25 = [] := by
  have hdrop : (Script.frameBytes p f).drop 25 = [] := List.drop_eq_nil_of_le (by simp [Script.frameBytes])
  rw [fed, hdrop, Script.beatsWith]

end Feeding

/-- Inside a frame of payload `p` and flags byte `f`, the bytes of positions 1 to `n` taken and the rest still to come. -/
structure InFrame {tsw : Nat} (ts : Nat → Timestamp tsw × Timestamp tsw) (p : AnalogBytes) (f : Byte)
    (rest : List (Ports tsw)) (n : Nat) (s : Block tsw) : Prop where
  st : s.st = .collect
  idx : s.idx.toNat = n + 1
  inCap : n + 1 ≤ cap s.mode
  bufWf : Memory.wf s.buf
  taken : ∀ k (h : k < 22), k < n → s.buf.get k = p[k]
  fs : 1 ≤ n → s.fs = (ts 1).1
  inputs : s.inputs = fed ts (Script.frameBytes p f) (n + 1) ++ rest

section Frame

variable {tsw : Nat} {ts : Nat → Timestamp tsw × Timestamp tsw} {p : AnalogBytes} {f : Byte} {rest : List (Ports tsw)}
  {n : Nat} {s t : Block tsw}

theorem InFrame.reachable (h : InFrame ts p f rest n s) : s.reachable = true := by
  simp [Block.reachable, reachableTriple, h.st, h.idx, h.inCap]

/-- The next byte of the frame, at the ports of a block that is fed it. -/
theorem ports_of_fed {vs : List Byte} {b : Byte} (hb : vs[n]? = some b) (hin : s.inputs = fed ts vs n ++ rest) :
    s.ports = ⟨false, true, b, (ts n).1, (ts n).2⟩ ∧ s.inputs.tail = fed ts vs (n + 1) ++ rest := by
  rw [fed_eq_cons ts hb, List.cons_append] at hin
  exact ⟨ports_of_inputs hin, by rw [hin, List.tail_cons]⟩

/-- A block in a reachable triple that is fed a byte is at a beat of that byte. -/
theorem beatOf_of_fed {vs : List Byte} {b : Byte} (hs : s.reachable = true) (hb : vs[n]? = some b)
    (hin : s.inputs = fed ts vs n ++ rest) : BeatOf s b := by
  obtain ⟨hports, -⟩ := ports_of_fed hb hin
  exact ⟨hs, by rw [hports], by rw [hports], by rw [hports]⟩

/-- R102, R104, R108: the start-sync byte opens the frame, an earlier one being dropped. -/
theorem frame_opens (hs : s.reachable = true) (hst : s.st ≠ .awaitStop)
    (hin : s.inputs = fed ts (Script.frameBytes p f) 0 ++ rest) :
    ∃ t, step ⟨tsw, s⟩ = .next ⟨tsw, t⟩ ∧ InFrame ts p f rest 0 t ∧ t.mode = s.mode ∧ t.flagsByte = s.flagsByte ∧
      t.sampled = [⟨.start, if s.st = .idle then .none else .prematureStart, (ts 0).1, (ts 0).2⟩] := by
  have hb : BeatOf s syncStart := beatOf_of_fed hs rfl hin
  obtain ⟨hports, htail⟩ := ports_of_fed rfl hin
  have hstep : StepCase s (updateOutputs ⟨.start, if s.st = .idle then .none else .prematureStart, (ts 0).1, (ts 0).2⟩
      (startFrame s)).nextEdge := by
    cases h : s.st with
    | idle => simpa [hports] using StepCase.idleStart hb h
    | collect => simpa [hports] using StepCase.collRestart hb h
    | flags => simpa [hports] using StepCase.flgsRestart hb h
    | awaitStop => exact absurd h hst
  refine ⟨_, hstep.step_eq, ?_, rfl, rfl, sampled_updateOutputs _ _⟩
  exact {
    st := rfl
    idx := rfl
    inCap := by cases hm : s.mode <;> simp [hm, cap]
    bufWf := wf_nil
    taken := fun k _ hk => absurd hk (Nat.not_lt_zero k)
    fs := nofun
    inputs := htail }

/-- R105: the byte stored at position `n + 1` joins the ones taken. -/
theorem InFrame.taken_accum (h : InFrame ts p f rest n s) (hn : n < 22) (k : Nat) (hk : k < 22) (hkn : k < n + 1) :
    (s.buf.put (s.idx.toNat - 1) p[n]).get k = p[k] := by
  rw [get_put h.bufWf, h.idx, Nat.add_sub_cancel]
  split_ifs with heq
  · subst heq
    rfl
  · exact h.taken k hk (by omega)

/-- R105, R116: fs is latched at position 1 and kept at every later one. -/
theorem InFrame.fs_accum (h : InFrame ts p f rest n s) (hstart : s.ports.inTsStart = (ts (n + 1)).1) :
    (if s.idx = 1#5 then s.ports.inTsStart else s.fs) = (ts 1).1 := by
  have hidx := h.idx
  split_ifs with hone
  · rw [hone] at hidx
    rw [hstart, ← hidx]
    rfl
  · refine h.fs (Nat.one_le_iff_ne_zero.mpr fun hzero => hone (BitVec.eq_of_toNat_eq ?_))
    rw [hidx, hzero]
    rfl

/-- R105: below CAP a payload byte is taken without an event. -/
theorem InFrame.accum (h : InFrame ts p f rest n s) (hn : n < 22) (hne : p[n] ≠ syncStart) (hcap : n + 1 < cap s.mode) :
    ∃ t, step ⟨tsw, s⟩ = .next ⟨tsw, t⟩ ∧ InFrame ts p f rest (n + 1) t ∧ t.mode = s.mode ∧ t.flagsByte = s.flagsByte ∧
      t.sampled = [] := by
  have hbyte : (Script.frameBytes p f)[n + 1]? = some p[n] := frameBytes_payload p f hn
  have hb : BeatOf s p[n] := beatOf_of_fed h.reachable hbyte h.inputs
  obtain ⟨hports, htail⟩ := ports_of_fed hbyte h.inputs
  have hlt : s.idx.toNat < cap s.mode := h.idx ▸ hcap
  have hstep := StepCase.collAccum p[n] hb h.st hne (by rw [h.idx]; omega) hlt
  refine ⟨_, hstep.step_eq, ?_, rfl, rfl, sampled_updateOutputs _ _⟩
  exact {
    st := h.st
    idx := (idx_succ_toNat hlt).trans (congrArg (· + 1) h.idx)
    inCap := hcap
    bufWf := put_wf h.bufWf (accum_entry_lt h.reachable h.st) _
    taken := h.taken_accum hn
    fs := fun _ => h.fs_accum (by rw [hports])
    inputs := htail }

/-- R105: the bytes of positions 1 to `n` are taken one after the other without an event. -/
theorem InFrame.run (h : InFrame ts p f rest 0 s) (hne : ∀ k (h : k < 22), p[k] ≠ syncStart) (n : Nat) (hn : n ≤ 22)
    (hcap : n + 1 ≤ cap s.mode) :
    ∃ t, runEvents n ⟨tsw, s⟩ = some ([], ⟨tsw, t⟩) ∧ InFrame ts p f rest n t ∧ t.mode = s.mode ∧
      t.flagsByte = s.flagsByte := by
  induction n with
  | zero => exact ⟨s, rfl, h, rfl, rfl⟩
  | succ n ih =>
    obtain ⟨t, hrun, hframe, hmode, hflags⟩ := ih (by omega) (by omega)
    obtain ⟨u, hstep, hframe', hmode', hflags', hsampled⟩ :=
      hframe.accum hn (hne n hn) (by rw [hmode]; exact hcap)
    have hone : runEvents 1 ⟨tsw, t⟩ = some ([], ⟨tsw, u⟩) := by
      rw [runEvents_cons hstep (n := 0) rfl, hsampled]
      rfl
    exact ⟨u, runEvents_trans hrun hone, hframe', hmode'.trans hmode, hflags'.trans hflags⟩

/-- R106, R150: at the last analog byte the slicer's operand in split mode is the frame's payload. -/
theorem InFrame.analogBytesWith_eq (h : InFrame ts p f rest 21 s) : analogBytesWith s.buf p[21] = p := by
  ext1 k hk
  rw [analogBytesWith_getElem]
  split_ifs with h21
  · subst h21; rfl
  · exact h.taken k hk (by omega)

/-- R107, R150: at the folded flags byte the slicer's operand in unified mode is the frame's payload. -/
theorem InFrame.analogBytes_eq (h : InFrame ts p f rest 22 s) : analogBytes s.buf = p := by
  ext1 k hk
  rw [analogBytes_getElem]
  exact h.taken k hk hk

/-- R106: in split mode the last analog byte reports the channels. -/
theorem InFrame.chanSplit (h : InFrame ts p f rest 21 s) (hm : s.mode = .split) (hne : p[21] ≠ syncStart) :
    ∃ t, step ⟨tsw, s⟩ = .next ⟨tsw, t⟩ ∧ t.reachable = true ∧ t.st = .flags ∧ t.chRaw = unpack p ∧
      t.inputs = fed ts (Script.frameBytes p f) 23 ++ rest ∧
      t.sampled = [⟨.chan (unpack p), .none, (ts 1).1, (ts 22).2⟩] := by
  have hbyte : (Script.frameBytes p f)[22]? = some p[21] := frameBytes_payload p f (by decide)
  obtain ⟨hports, htail⟩ := ports_of_fed hbyte h.inputs
  have hstep := StepCase.collChanSplit p[21] (beatOf_of_fed h.reachable hbyte h.inputs) h.st hne hm
    (BitVec.eq_of_toNat_eq h.idx)
  rw [h.analogBytesWith_eq, h.fs (by decide), hports] at hstep
  exact ⟨_, hstep.step_eq, hstep.reachable, rfl, rfl, htail, sampled_updateOutputs _ _⟩

/-- R107: in unified mode the folded flags byte reports the channels and leaves `flags_byte`. -/
theorem InFrame.chanUnified (h : InFrame ts p f rest 22 s) (hm : s.mode = .unified) (hne : f ≠ syncStart) :
    ∃ t, step ⟨tsw, s⟩ = .next ⟨tsw, t⟩ ∧ t.reachable = true ∧ t.st = .awaitStop ∧ t.chRaw = unpack p ∧
      t.flagsByte = s.flagsByte ∧ t.inputs = fed ts (Script.frameBytes p f) 24 ++ rest ∧
      t.sampled = [⟨.chan (unpack p), .none, (ts 1).1, (ts 23).2⟩] := by
  have hbyte : (Script.frameBytes p f)[23]? = some f := frameBytes_flags p f
  obtain ⟨hports, htail⟩ := ports_of_fed hbyte h.inputs
  have hstep := StepCase.collChanUnified f (beatOf_of_fed h.reachable hbyte h.inputs) h.st hne hm
    (BitVec.eq_of_toNat_eq h.idx)
  rw [h.analogBytes_eq, h.fs (by decide), hports] at hstep
  exact ⟨_, hstep.step_eq, hstep.reachable, rfl, rfl, rfl, htail, sampled_updateOutputs _ _⟩

/-- R109: the flags byte of the frame is reported and latched. -/
theorem frame_flags (hs : s.reachable = true) (hst : s.st = .flags)
    (hin : s.inputs = fed ts (Script.frameBytes p f) 23 ++ rest) (hne : f ≠ syncStart) :
    ∃ t, step ⟨tsw, s⟩ = .next ⟨tsw, t⟩ ∧ t.reachable = true ∧ t.st = .awaitStop ∧ t.chRaw = s.chRaw ∧
      t.flagsByte = f ∧ t.inputs = fed ts (Script.frameBytes p f) 24 ++ rest ∧
      t.sampled = [⟨.flag f, .none, (ts 23).1, (ts 23).2⟩] := by
  have hbyte : (Script.frameBytes p f)[23]? = some f := frameBytes_flags p f
  obtain ⟨hports, htail⟩ := ports_of_fed hbyte hin
  have hstep := StepCase.flgsDecode f (beatOf_of_fed hs hbyte hin) hst hne
  rw [hports] at hstep
  exact ⟨_, hstep.step_eq, hstep.reachable, rfl, rfl, rfl, htail, sampled_updateOutputs _ _⟩

/-- R110: the stop-sync byte ends the frame. -/
theorem frame_stops (hs : s.reachable = true) (hst : s.st = .awaitStop)
    (hin : s.inputs = fed ts (Script.frameBytes p f) 24 ++ rest) :
    ∃ t, step ⟨tsw, s⟩ = .next ⟨tsw, t⟩ ∧ t.st = .idle ∧ t.idx = 0#5 ∧ t.chRaw = s.chRaw ∧ t.flagsByte = s.flagsByte ∧
      t.inputs = rest ∧ t.sampled = [⟨.stop, .none, (ts 24).1, (ts 24).2⟩] := by
  have hbyte : (Script.frameBytes p f)[24]? = some syncStop := frameBytes_stop p f
  obtain ⟨hports, htail⟩ := ports_of_fed hbyte hin
  have hstep := StepCase.awstStop (beatOf_of_fed hs hbyte hin) hst
  rw [hports] at hstep
  rw [fed_frameBytes_end, List.nil_append] at htail
  exact ⟨_, hstep.step_eq, rfl, rfl, rfl, rfl, htail, sampled_updateOutputs _ _⟩

/-- R103: outside a frame every byte but a start-sync byte is skipped without an event. -/
theorem run_of_skipped (vs : List Byte) (ts : Nat → Timestamp tsw × Timestamp tsw) (hs : s.reachable = true)
    (hst : s.st = .idle) (hne : ∀ b ∈ vs, b ≠ syncStart) (hin : s.inputs = Script.beatsWith ts vs ++ rest) :
    ∃ t, runEvents vs.length ⟨tsw, s⟩ = some ([], ⟨tsw, t⟩) ∧ t.st = .idle ∧ t.idx = 0#5 ∧ t.chRaw = s.chRaw ∧
      t.flagsByte = s.flagsByte ∧ t.inputs = rest := by
  induction vs generalizing s ts with
  | nil => exact ⟨s, rfl, hst, reachable_idle hs hst, rfl, rfl, hin⟩
  | cons b vs ih =>
    obtain ⟨hb, hvs⟩ := List.forall_mem_cons.mp hne
    rw [Script.beatsWith, List.cons_append] at hin
    have hstep := StepCase.idleSkip b (beatOf_of_inputs hs hin) hst hb
    have hrest := hstep.mode_inputs.2
    rw [hin, List.tail_cons] at hrest
    obtain ⟨t, hrun, hend⟩ := ih (fun k => ts (k + 1)) hstep.reachable hst hvs hrest
    exact ⟨t, runEvents_cons hstep.step_eq hrun, hend⟩

end Frame

/-- Settles O55: the frame opens, 21 analog bytes are taken, the 22nd reports the channels, and flags and stop follow. -/
theorem validFrameInSplitMode : Obligations.ValidFrameInSplitMode := by
  unfold Obligations.ValidFrameInSplitMode
  intro w s p f ts rest hm hs hst hp hf hin
  obtain ⟨s₁, hstep₁, hframe₁, hmode₁, -, hev₁⟩ := frame_opens hs hst hin
  obtain ⟨s₂, hrun₂, hframe₂, hmode₂, -⟩ := hframe₁.run hp 21 (by decide) (by rw [hmode₁, hm]; decide)
  obtain ⟨s₃, hstep₃, hs₃, hst₃, hraw₃, hin₃, hev₃⟩ :=
    hframe₂.chanSplit (hmode₂.trans (hmode₁.trans hm)) (hp 21 (by decide))
  obtain ⟨s₄, hstep₄, hs₄, hst₄, hraw₄, hflags₄, hin₄, hev₄⟩ := frame_flags hs₃ hst₃ hin₃ hf
  obtain ⟨t, hstep₅, hst₅, hi₅, hraw₅, hflags₅, hin₅, hev₅⟩ := frame_stops hs₄ hst₄ hin₄
  have hlast := runEvents_cons hstep₃ (runEvents_cons hstep₄ (runEvents_cons hstep₅ (n := 0) rfl))
  refine ⟨t, (runEvents_cons hstep₁ (runEvents_trans hrun₂ hlast)).trans ?_, hst₅, hi₅, hraw₅.trans (hraw₄.trans hraw₃),
    hflags₅.trans hflags₄, hin₅⟩
  rw [hev₁, hev₃, hev₄, hev₅]
  rfl

/-- Settles O56: the frame opens, 22 analog bytes are taken, the folded flags byte reports the channels, and the stop
follows. -/
theorem validFrameInUnifiedMode : Obligations.ValidFrameInUnifiedMode := by
  unfold Obligations.ValidFrameInUnifiedMode
  intro w s p f ts rest hm hs hst hp hf hin
  obtain ⟨s₁, hstep₁, hframe₁, hmode₁, hflags₁, hev₁⟩ := frame_opens hs hst hin
  obtain ⟨s₂, hrun₂, hframe₂, hmode₂, hflags₂⟩ := hframe₁.run hp 22 (by decide) (by rw [hmode₁, hm]; decide)
  obtain ⟨s₃, hstep₃, hs₃, hst₃, hraw₃, hflags₃, hin₃, hev₃⟩ := hframe₂.chanUnified (hmode₂.trans (hmode₁.trans hm)) hf
  obtain ⟨t, hstep₄, hst₄, hi₄, hraw₄, hflags₄, hin₄, hev₄⟩ := frame_stops hs₃ hst₃ hin₃
  have hlast := runEvents_cons hstep₃ (runEvents_cons hstep₄ (n := 0) rfl)
  refine ⟨t, (runEvents_cons hstep₁ (runEvents_trans hrun₂ hlast)).trans ?_, hst₄, hi₄, hraw₄.trans hraw₃,
    hflags₄.trans (hflags₃.trans (hflags₂.trans hflags₁)), hin₄⟩
  rw [hev₁, hev₃, hev₄]
  rfl

/-- Settles O57: the start-sync byte is a bad terminator, and the 24 bytes after it, none a start-sync byte, are skipped. -/
theorem frameAfterAMissingStopIsLost : Obligations.FrameAfterAMissingStopIsLost := by
  unfold Obligations.FrameAfterAMissingStopIsLost
  intro w s p f ts rest hs hst hp hf hin
  have hne : ∀ b ∈ p.toList ++ [f, syncStop], b ≠ syncStart := by
    intro b hb
    rcases List.mem_append.mp hb with hb | hb
    · obtain ⟨k, hk, rfl⟩ := List.getElem_of_mem hb
      exact hp k (by simpa using hk)
    · rcases List.mem_pair.mp hb with rfl | rfl
      · exact hf
      · decide
  rw [Script.frameBytes, Script.beatsWith, List.cons_append] at hin
  have hstep := StepCase.awstDesync syncStart (beatOf_of_inputs hs hin) hst (by decide)
  have hrest := hstep.mode_inputs.2
  rw [ports_of_inputs hin] at hstep hrest
  rw [hin, List.tail_cons] at hrest
  obtain ⟨t, hrun, hend⟩ := run_of_skipped _ _ hstep.reachable rfl hne hrest
  have hlength : (p.toList ++ [f, syncStop]).length = 24 := by simp
  rw [hlength] at hrun
  refine ⟨t, (runEvents_cons hstep.step_eq hrun).trans ?_, hend⟩
  rw [sampled_updateOutputs]
  rfl

end Sys2Proof.Machine

namespace Sys2Proof.Machine

/-! ## How far apart events are -/

/-- The least number of beats up to and with the one that takes frame position `q`, by the position of the next byte: in this
frame while `q` is not passed, else in the next one, which a start-sync byte opens at once up to position 23, and after
position 24 only behind the byte that ends this frame (R31, R239). -/
def Block.beatsTo {tsw : Nat} (q : Nat) (s : Block tsw) : Nat :=
  if s.idx.toNat ≤ q then q + 1 - s.idx.toNat else if s.idx.toNat ≤ flagsPos then q + 1 else q + 2

/-- 1 where the next edge is marked as carrying a byte, 0 where not (R11). -/
def Block.beatNow {tsw : Nat} (s : Block tsw) : Nat := if s.ports.inValid then 1 else 0

section Spacing

variable {tsw : Nat} {s t : Block tsw} {b : Byte}

theorem beatNow_of_beat (hb : BeatOf s b) : s.beatNow = 1 := if_pos hb.inValid

/-- The beats of the next `n + 1` edges are the next edge's and those of the `n` edges after it. -/
theorem beatsIn_succ (n : Nat) (hin : t.inputs = s.inputs.tail) : beatsIn (n + 1) s = s.beatNow + beatsIn n t := by
  unfold beatsIn Block.beatNow Block.ports
  rw [hin]
  cases s.inputs with
  | nil => simp [Ports.quiet]
  | cons p ps => cases hv : p.inValid <;> simp [hv, Nat.add_comm]

/-- A bound that an edge lowers by at most its own beat, and that is used up where an event of a kind is reported, bounds the
beats of every run that reports one. -/
theorem bound_le_beatsIn {kind : EvKind} {bound : Block tsw → Nat}
    (hstep : ∀ s t : Block tsw, StepCase s t → s.ports.rst = false → bound s ≤ s.beatNow + bound t)
    (hevent : ∀ s t : Block tsw, StepCase s t → s.ports.rst = false → t.evKind = kind → bound s ≤ s.beatNow)
    (n : Nat) {evs : List Sample} {u : State} (hrun : runEvents n ⟨tsw, s⟩ = some (evs, u)) (hreset : NoReset n s)
    (hkind : ∃ e ∈ evs, e.event.body.kind = kind) : bound s ≤ beatsIn n s := by
  induction n generalizing s evs with
  | zero =>
    cases hrun
    obtain ⟨e, he, -⟩ := hkind
    exact absurd he List.not_mem_nil
  | succ n ih =>
    obtain ⟨_, evs', hnext, hrest, rfl⟩ := runEvents_succ_eq_some hrun
    obtain ⟨t, rfl, hcase⟩ := step_next hnext
    have hin : t.inputs = s.inputs.tail := hcase.mode_inputs.2
    obtain ⟨hr, hreset⟩ := forall_edges_succ (P := fun p => p.rst = false) rfl hreset
    rw [← hin] at hreset
    rw [beatsIn_succ n hin]
    obtain ⟨e, he, hk⟩ := hkind
    rcases List.mem_append.mp he with he | he
    · exact (hevent s t hcase hr ((kind_of_mem_samples he).symm.trans hk)).trans (Nat.le_add_right _ _)
    · exact (hstep s t hcase hr).trans (Nat.add_le_add_left (ih hrest hreset ⟨e, he, hk⟩) _)

/-- R31: a beat takes the next frame position, or restarts the frame from a position up to 23, or ends in the Idle
baseline from the last position or from there. -/
theorem StepCase.idx_of_beat (h : StepCase s t) (hr : s.ports.rst = false) (hv : s.ports.inValid = true) :
    t.idx.toNat = s.idx.toNat + 1 ∨ (t.idx.toNat = 1 ∧ s.idx.toNat ≤ flagsPos) ∨
      (t.idx.toNat = 0 ∧ (s.idx.toNat = stopPos ∨ s.idx.toNat = 0)) := by
  cases h with
  | reset hrst => exact absurd (hr.symm.trans hrst) Bool.false_ne_true
  | idleEdge _ hidle => exact absurd (hidle.symm.trans hv) Bool.false_ne_true
  | idleStart hb hst => exact .inr (.inl ⟨rfl, by rw [reachable_idle hb.reachable hst]; decide⟩)
  | idleSkip b hb hst hne =>
    have hi : s.idx.toNat = 0 := congrArg BitVec.toNat (reachable_idle hb.reachable hst)
    exact .inr (.inr ⟨hi, .inr hi⟩)
  | collRestart hb hst =>
    have hcap : cap s.mode ≤ flagsPos := by cases s.mode <;> decide
    exact .inr (.inl ⟨rfl, (reachable_collect hb.reachable hst).2.trans hcap⟩)
  | collChanSplit b hb hst hne hm hi => exact .inl (by rw [hi]; rfl)
  | collChanUnified b hb hst hne hm hi => exact .inl (by rw [hi]; rfl)
  | collAccum b hb hst hne h1 hi => exact .inl (idx_succ_toNat hi)
  | flgsRestart hb hst => exact .inr (.inl ⟨rfl, by rw [(reachable_flags hb.reachable hst).2]; decide⟩)
  | flgsDecode b hb hst hne => exact .inl (by rw [(reachable_flags hb.reachable hst).2]; rfl)
  | awstStop hb hst | awstDesync b hb hst hne =>
    exact .inr (.inr ⟨rfl, .inl (by rw [reachable_awaitStop hb.reachable hst]; rfl)⟩)

/-- R31: an edge brings a frame position nearer by at most its own beat. -/
theorem beatsTo_step (q : Nat) (h : StepCase s t) (hr : s.ports.rst = false) :
    s.beatsTo q ≤ s.beatNow + t.beatsTo q := by
  cases hv : s.ports.inValid with
  | false =>
    obtain ⟨-, hidx, -, -⟩ := h.core_of_idle hr hv
    rw [Block.beatsTo, Block.beatsTo, hidx]
    exact Nat.le_add_left _ _
  | true =>
    have hnow : s.beatNow = 1 := if_pos hv
    have hmove := h.idx_of_beat hr hv
    unfold flagsPos at hmove
    unfold stopPos at hmove
    rw [hnow, Block.beatsTo, Block.beatsTo, flagsPos]
    split_ifs <;> omega

/-- R106, R107: CHAN is reported by the beat of position CAP. -/
theorem StepCase.chan_position (h : StepCase s t) (hkind : t.evKind = .chan) :
    s.beatNow = 1 ∧ s.idx.toNat = cap s.mode ∧ t.idx.toNat = cap s.mode + 1 := by
  cases h with
  | collChanSplit b hb hst hne hm hi =>
    rw [hm, hi]
    exact ⟨beatNow_of_beat hb, rfl, rfl⟩
  | collChanUnified b hb hst hne hm hi =>
    rw [hm, hi]
    exact ⟨beatNow_of_beat hb, rfl, rfl⟩
  | reset | idleEdge | idleStart | idleSkip | collRestart | collAccum | flgsRestart | flgsDecode | awstStop
  | awstDesync => cases hkind

/-- R109: FLAG is reported by the beat of position 23. -/
theorem StepCase.flag_position (h : StepCase s t) (hkind : t.evKind = .flag) :
    s.beatNow = 1 ∧ s.idx.toNat = flagsPos ∧ t.idx.toNat = stopPos := by
  cases h with
  | flgsDecode b hb hst hne =>
    rw [(reachable_flags hb.reachable hst).2]
    exact ⟨beatNow_of_beat hb, rfl, rfl⟩
  | reset | idleEdge | idleStart | idleSkip | collRestart | collChanSplit | collChanUnified | collAccum | flgsRestart
  | awstStop | awstDesync => cases hkind

/-- At its own position an event is one beat away. -/
theorem beatsTo_of_position {q : Nat} (h : s.idx.toNat = q) : s.beatsTo q = 1 := by
  rw [Block.beatsTo, if_pos h.le, h, Nat.add_sub_cancel_left]

/-- R239: the beats before the next CHAN event. -/
theorem beatsTo_chan_le_beatsIn {n : Nat} {evs : List Sample} {u : State} (hrun : runEvents n ⟨tsw, s⟩ = some (evs, u))
    (hreset : NoReset n s) (hkind : ∃ e ∈ evs, e.event.body.kind = .chan) : s.beatsTo (cap s.mode) ≤ beatsIn n s := by
  refine bound_le_beatsIn (bound := fun s => s.beatsTo (cap s.mode)) (fun s t h hr => ?step) (fun s t h _ hk => ?event)
    n hrun hreset hkind
  case step =>
    rw [h.mode_inputs.1]
    exact beatsTo_step _ h hr
  case event =>
    obtain ⟨hnow, hidx, -⟩ := h.chan_position hk
    rw [beatsTo_of_position hidx, hnow]

/-- R239: the beats before the next FLAG event. -/
theorem beatsTo_flag_le_beatsIn {n : Nat} {evs : List Sample} {u : State} (hrun : runEvents n ⟨tsw, s⟩ = some (evs, u))
    (hreset : NoReset n s) (hkind : ∃ e ∈ evs, e.event.body.kind = .flag) : s.beatsTo flagsPos ≤ beatsIn n s := by
  refine bound_le_beatsIn (bound := fun s => s.beatsTo flagsPos) (fun s t h hr => ?step) (fun s t h _ hk => ?event)
    n hrun hreset hkind
  case step => exact beatsTo_step flagsPos h hr
  case event =>
    obtain ⟨hnow, hidx, -⟩ := h.flag_position hk
    rw [beatsTo_of_position hidx, hnow]

end Spacing

/-- Settles O59: the event's own beat leaves the frame at the position behind it, from where the next such event's position is
that many beats away. -/
theorem eventsAreSpacedApart : Obligations.EventsAreSpacedApart := by
  unfold Obligations.EventsAreSpacedApart
  intro w s t u n evs hstep hrun hreset
  have hcase := step_case hstep
  refine ⟨fun hkind hnext => ?chan, fun hkind hnext => ?flag⟩
  case chan =>
    obtain ⟨-, -, hidx⟩ := hcase.chan_position hkind
    rw [← hcase.mode_inputs.1] at hidx
    refine le_trans (le_of_eq ?_) (beatsTo_chan_le_beatsIn hrun hreset hnext)
    rw [Block.beatsTo, hidx]
    cases t.mode <;> rfl
  case flag =>
    obtain ⟨-, -, hidx⟩ := hcase.flag_position hkind
    refine le_trans (le_of_eq ?_) (beatsTo_flag_le_beatsIn hrun hreset hnext)
    rw [Block.beatsTo, hidx]
    rfl

end Sys2Proof.Machine
